-- ==== Sys2Proof/Word.lean ====
section
/-! DEFINITION. The word of the host bus and of a command: 32 bits (20_memory.md R51, 30_encoding.md R80). -/

namespace Sys2Proof

/-- A 32-bit word: one bus access, one command word, one control register, one limb (R51, R53, R80). -/
abbrev Word := BitVec 32

end Sys2Proof
end

