-- ==== Sys2Proof/Config.lean ====
section
/-! DEFINITION. What an implementation or a platform fixes (00_scope.md R7, R9, R11), the constants of the
register window (10_state.md R27), and the one value the spec leaves free (20_memory.md R61). -/

namespace Sys2Proof

/-- The parameters of one engine (00_scope.md R7 and R11). They hold for the life of the machine: no step and no
reset changes them. Every statement about all states is a statement about all parameters. -/
structure Params where
  /-- W in units of 64 bits, less one: W is a multiple of 64 with 64 <= W <= 8192 (R7), so every value is legal. -/
  width64 : Fin 128
  /-- BASE, the bus address of the register window (R11, R50). OPEN in the spec. -/
  base : Nat
  /-- IRQ_LINE, the input of the host's interrupt controller that IRQ drives (R11, R209). OPEN in the spec. -/
  irqLine : Nat
deriving DecidableEq, Repr

/-- The operand width in bits (R7). -/
def Params.W (p : Params) : Nat := 64 * (p.width64.val + 1)

/-- The number of limbs of one register: W/32 (20_memory.md R53). -/
def Params.limbs (p : Params) : Nat := p.W / 32

/-- W = 2112, the reference width (00_scope.md R8).
BASE = 0 and IRQ_LINE = 0: DESIGN CHOICE (log 2), the spec leaves both open. -/
def Params.reference : Params := { width64 := 32, base := 0, irqLine := 0 }

/-- ID, the bytes "ACE1" (R3, R27). -/
def Config.idWord : Word := 0x41434531#32

/-- CONFIG[31:24], the version of the command set (R3, R27). -/
def Config.version : BitVec 8 := 1#8

/-- CONFIG[23:16], NREG = 16 (R9, R27). -/
def Config.nreg : BitVec 8 := 16#8

/-- The size of the register window in bytes (20_memory.md R50). -/
def Config.windowBytes : Nat := 0x10000

/-- The value of the n-th register-file read made while the engine is busy: "an unspecified 32-bit value ...
a free input under no law" (20_memory.md R61, 93_implementation_defined.md U1). It has no body, so no proof can see
it; State.draws counts the draws (log 3). -/
opaque Config.busyRead : Nat → Word

end Sys2Proof
end

