-- ==== Sys2Proof/Syntax.lean ====
section
/-! DEFINITION. The commands of ACE command set version 1 as syntax: one constructor per row of
spec/opcode_table.json (30_encoding.md R84). -/

namespace Sys2Proof

/-- A register index, v0 to v15 (10_state.md R20, 30_encoding.md R88). -/
abbrev Reg := Fin 16

/-- One command, with the fields its row uses (R84). The field names are those of R81 and R82:
`rd` destination, `rs1` operand A, `rs2` operand B, `rs3` modulus N. -/
inductive Instr where
  | nop                                  -- R100
  | mov      (rd rs1 : Reg)              -- R101
  | seti     (rd : Reg) (imm16 : BitVec 16)  -- R102
  | gcd      (rd rs1 rs2 : Reg)          -- R121
  | gcdstep  (rd rs1 rs2 : Reg)          -- R122
  | egcd     (rd rs1 rs2 : Reg)          -- R123
  | modinv   (rd rs1 rs3 : Reg)          -- R125
  | modmul   (rd rs1 rs2 rs3 : Reg)      -- R150
  | modexp   (rd rs1 rs2 rs3 : Reg)      -- R151
  | montmul  (rd rs1 rs2 rs3 : Reg)      -- R172
  | tomont   (rd rs1 rs3 : Reg)          -- R173
  | frommont (rd rs1 rs3 : Reg)          -- R174
  | montr2   (rd rs3 : Reg)              -- R175
deriving DecidableEq, Repr

end Sys2Proof
end

