-- ==== Sys2Proof/WellFormed.lean ====
section
/-! DEFINITION. Which commands meet the register-field constraints of 30_encoding.md R88. Every term of Instr has an
encoding and an outcome; a term that is not well formed is the one that the engine ends with code OPERAND
(60_exceptions.md R201). -/

namespace Sys2Proof

/-- EGCD's group rd, rd+1, rd+2 does not pass v15: rd <= 13 (41_gcd_stepper.md R123). -/
def egcdGroupFits (rd : Reg) : Bool := decide (rd.val ≤ 13)

/-- GCDSTEP's three fields are pairwise distinct (41_gcd_stepper.md R122). -/
def gcdstepFieldsDistinct (rd rs1 rs2 : Reg) : Bool := rd != rs1 && rd != rs2 && rs1 != rs2

/-- The command-specific constraints of R88. -/
def Instr.wellFormed : Instr → Bool
  | .gcdstep rd rs1 rs2 => gcdstepFieldsDistinct rd rs1 rs2
  | .egcd rd _ _ => egcdGroupFits rd
  | .nop => true
  | .mov _ _ => true
  | .seti _ _ => true
  | .gcd _ _ _ => true
  | .modinv _ _ _ => true
  | .modmul _ _ _ _ => true
  | .modexp _ _ _ _ => true
  | .montmul _ _ _ _ => true
  | .tomont _ _ _ => true
  | .frommont _ _ _ => true
  | .montr2 _ _ => true

/-- The command is well formed. -/
abbrev Instr.WellFormed (i : Instr) : Prop := i.wellFormed = true

end Sys2Proof
end

