-- ==== Sys2Proof/Decode.lean ====
section
/-! DEFINITION. Command words: the opcode map, the decoder and the encoder (30_encoding.md R80 to R92). -/

namespace Sys2Proof

/-! ## Fields (R81, R82, R88) -/

/-- op = w[7:0]. -/
def opField (c : Word) : BitVec 8 := c.extractLsb' 0 8

/-- rd = w[11:8]. -/
def rdField (c : Word) : Reg := (c.extractLsb' 8 4).toFin

/-- rs1 = w[15:12]. -/
def rs1Field (c : Word) : Reg := (c.extractLsb' 12 4).toFin

/-- rs2 = w[19:16]. -/
def rs2Field (c : Word) : Reg := (c.extractLsb' 16 4).toFin

/-- rs3 = w[23:20]. -/
def rs3Field (c : Word) : Reg := (c.extractLsb' 20 4).toFin

/-- imm16 = w[31:16] (R82, R87). -/
def imm16Field (c : Word) : BitVec 16 := c.extractLsb' 16 16

/-! ## The opcode map (R84) -/

/-- One row of the opcode map. -/
structure Row where
  /-- The row's mnemonic. -/
  mnemonic : String
  /-- The row's opcode, w[7:0]. -/
  op : BitVec 8
  /-- The row's `match`. -/
  value : Word
  /-- The row's `mask`. -/
  mask : Word
  /-- The command that the row's fields name in a word. -/
  build : Word → Instr

/-- "A word w selects a row when `w and mask = match`" (R84). -/
def Row.selects (r : Row) (w : Word) : Bool := w &&& r.mask == r.value

/-- The opcode map, row by row as R84 lists it. -/
def opcodeTable : List Row :=
  [ ⟨"NOP",      0x00#8, 0x00000000#32, 0xFFFFFFFF#32, fun _ => .nop⟩,
    ⟨"MOV",      0x01#8, 0x00000001#32, 0xFFFF00FF#32, fun c => .mov (rdField c) (rs1Field c)⟩,
    ⟨"SETI",     0x02#8, 0x00000002#32, 0x0000F0FF#32, fun c => .seti (rdField c) (imm16Field c)⟩,
    ⟨"GCD",      0x10#8, 0x00000010#32, 0xFFF000FF#32, fun c => .gcd (rdField c) (rs1Field c) (rs2Field c)⟩,
    ⟨"GCDSTEP",  0x11#8, 0x00000011#32, 0xFFF000FF#32, fun c => .gcdstep (rdField c) (rs1Field c) (rs2Field c)⟩,
    ⟨"EGCD",     0x12#8, 0x00000012#32, 0xFFF000FF#32, fun c => .egcd (rdField c) (rs1Field c) (rs2Field c)⟩,
    ⟨"MODINV",   0x13#8, 0x00000013#32, 0xFF0F00FF#32, fun c => .modinv (rdField c) (rs1Field c) (rs3Field c)⟩ ] ++
  [ ⟨"MODMUL",   0x20#8, 0x00000020#32, 0xFF0000FF#32,
      fun c => .modmul (rdField c) (rs1Field c) (rs2Field c) (rs3Field c)⟩,
    ⟨"MODEXP",   0x21#8, 0x00000021#32, 0xFF0000FF#32,
      fun c => .modexp (rdField c) (rs1Field c) (rs2Field c) (rs3Field c)⟩,
    ⟨"MONTMUL",  0x30#8, 0x00000030#32, 0xFF0000FF#32,
      fun c => .montmul (rdField c) (rs1Field c) (rs2Field c) (rs3Field c)⟩,
    ⟨"TOMONT",   0x31#8, 0x00000031#32, 0xFF0F00FF#32, fun c => .tomont (rdField c) (rs1Field c) (rs3Field c)⟩,
    ⟨"FROMMONT", 0x32#8, 0x00000032#32, 0xFF0F00FF#32, fun c => .frommont (rdField c) (rs1Field c) (rs3Field c)⟩,
    ⟨"MONTR2",   0x33#8, 0x00000033#32, 0xFF0FF0FF#32, fun c => .montr2 (rdField c) (rs3Field c)⟩ ]

/-! ## The decoder (R92) -/

/-- Why a word is no command (R83, R85). Each ends in error completion with code ILLEGAL. -/
inductive Illegal where
  /-- The opcode is not in the opcode map. -/
  | reservedOpcode (op : BitVec 8)
  /-- The opcode is assigned and a must-be-zero bit of the word is 1. -/
  | mustBeZero (c : Word)
deriving DecidableEq, Repr

/-- "the row of rule R84 with that op" (R92). -/
def rowOf (op : BitVec 8) : Option Row := opcodeTable.find? (fun r => r.op == op)

/-- The decoder, total on every 32-bit word (R92): first the opcode, then the must-be-zero bits. -/
def decode (c : Word) : Except Illegal Instr :=
  match rowOf (opField c) with
  | none => .error (.reservedOpcode (opField c))
  | some row => if row.selects c then .ok (row.build c) else .error (.mustBeZero c)

/-! ## The encoder (R81, R82, R84) -/

/-- Format R, bit 31 first: `00000000 mmmm bbbb aaaa dddd oooooooo` (R81). -/
def encodeR (op : BitVec 8) (rd rs1 rs2 rs3 : Reg) : Word :=
  0#8 ++ BitVec.ofFin (w := 4) rs3 ++ BitVec.ofFin (w := 4) rs2 ++ BitVec.ofFin (w := 4) rs1 ++
    BitVec.ofFin (w := 4) rd ++ op

/-- Format I, bit 31 first: `iiiiiiiiiiiiiiii 0000 dddd oooooooo` (R82). -/
def encodeI (op : BitVec 8) (rd : Reg) (imm16 : BitVec 16) : Word :=
  imm16 ++ 0#4 ++ BitVec.ofFin (w := 4) rd ++ op

/-- The command word of a command. Unused register fields hold 0 (R83). -/
def encode : Instr → Word
  | .nop => encodeR 0x00#8 0 0 0 0
  | .mov rd rs1 => encodeR 0x01#8 rd rs1 0 0
  | .seti rd imm16 => encodeI 0x02#8 rd imm16
  | .gcd rd rs1 rs2 => encodeR 0x10#8 rd rs1 rs2 0
  | .gcdstep rd rs1 rs2 => encodeR 0x11#8 rd rs1 rs2 0
  | .egcd rd rs1 rs2 => encodeR 0x12#8 rd rs1 rs2 0
  | .modinv rd rs1 rs3 => encodeR 0x13#8 rd rs1 0 rs3
  | .modmul rd rs1 rs2 rs3 => encodeR 0x20#8 rd rs1 rs2 rs3
  | .modexp rd rs1 rs2 rs3 => encodeR 0x21#8 rd rs1 rs2 rs3
  | .montmul rd rs1 rs2 rs3 => encodeR 0x30#8 rd rs1 rs2 rs3
  | .tomont rd rs1 rs3 => encodeR 0x31#8 rd rs1 0 rs3
  | .frommont rd rs1 rs3 => encodeR 0x32#8 rd rs1 0 rs3
  | .montr2 rd rs3 => encodeR 0x33#8 rd 0 0 rs3

/-! ## The host's table words -/

/-- The word of `nbits` bits, numbered as spec/opcode_table.json numbers them. A command is exactly one 32-bit word
(R80), so bits above `nbits` are 0 and a value of more than 32 bits is no command word. -/
def tableWord (nbits w : Nat) : Option Word :=
  if w % 2 ^ nbits < 2 ^ 32 then some (BitVec.ofNat 32 (w % 2 ^ nbits)) else none

/-- The command this decoder reads from a word of the opcode table. -/
def decodeTableWord (nbits w : Nat) : Option Instr :=
  match tableWord nbits w with
  | none => none
  | some c =>
    match decode c with
    | .ok i => some i
    | .error _ => none

end Sys2Proof
end

