-- ==== Sys2Proof/Machine/State.lean ====
section
/-! DEFINITION. The state of the engine as plain data (10_state.md), the events that reach it from outside, and the
state right after reset (10_state.md R35). -/

namespace Sys2Proof.Machine

/-- The engine phase: "`Idle` or `Busy(c)`, where c is the accepted command word" (R28). -/
inductive Phase where
  | idle
  | busy (c : Word)
deriving DecidableEq, Repr

/-- The stored fields of STATUS (R25). BUSY is not stored: it is a function of the phase (R28). The reserved bits
are not stored: they read 0. -/
structure Status where
  /-- Bit 1, RW1C: a completion is pending. -/
  done : Bool
  /-- Bit 2: the most recent completion was an error completion. -/
  err : Bool
  /-- Bit 3, RW1C: the hazard flag. -/
  hz : Bool
  /-- Bits 7:4: the code of the most recent error completion. -/
  errCode : BitVec 4
  /-- Bit 8: the zero flag. -/
  z : Bool
  /-- Bit 9: the sign of EGCD's x coefficient. -/
  xs : Bool
  /-- Bit 10: the sign of EGCD's y coefficient. -/
  ys : Bool
deriving DecidableEq, Repr

/-- STATUS after reset: every field 0 (R35). -/
def Status.reset : Status :=
  { done := false, err := false, hz := false, errCode := 0#4, z := false, xs := false, ys := false }

/-- What a host access does: a read, or a write of a value (R14 `MemRead` and `MemWrite`). -/
inductive AccessOp where
  | read
  | write (v : Word)
deriving DecidableEq, Repr

/-- One host access as it arrives: the bus address, the width in bytes, and what it does. Only 4-byte accesses
have an effect, so the value of a narrower or wider write is of no account (20_memory.md R51). -/
structure Access where
  addr : Nat
  bytes : Nat
  op : AccessOp
deriving DecidableEq, Repr

/-- One place in the total order of 20_memory.md R62. -/
inductive Event where
  /-- A host access arrives. -/
  | bus (a : Access)
  /-- The engine takes a step: while it is busy, this is where the completion falls (R31, R32). -/
  | engine
  /-- The reset input is asserted or released (70_reset_and_hazards.md R230). DESIGN CHOICE (log 4): the event resets
  the engine even where the input already has that level. -/
  | resetInput (asserted : Bool)
deriving DecidableEq, Repr

/-- What the bus answers the host, with the offset of the access in the register window. -/
inductive Reply where
  /-- The data of a read. -/
  | data (off : Nat) (v : Word)
  /-- A write that got no bus error: performed, ignored or dropped. -/
  | written (off : Nat)
  /-- The bus error response `BusError(off)`: no data and no effect (60_exceptions.md R207). -/
  | busError (off : Nat)
deriving DecidableEq, Repr

/-- The machine. -/
structure State where
  /-- The parameters W, BASE and IRQ_LINE (00_scope.md R7, R11). Nothing changes them. -/
  params : Params
  /-- The register file x[0] to x[15], each the unsigned integer in [0, 2^W) that its W bits spell (R20).
  That every value is below 2^W is the invariant `EngineInv.regs_lt` of Safety.lean. -/
  regs : Vector Nat 16
  /-- CMD: the command word of the most recently accepted command (R24). -/
  cmd : Word
  /-- STATUS (R25). -/
  status : Status
  /-- CTRL.IE (R26). -/
  ie : Bool
  /-- The engine phase (R28). -/
  phase : Phase
  /-- The reset input: true while it is asserted (70_reset_and_hazards.md R230). -/
  resetInput : Bool
  /-- The model's own: the total order of R62 still to come, first event first. -/
  pending : List Event
  /-- The model's own: what the bus has answered the host so far, oldest first. -/
  replies : List Reply
  /-- The model's own: how many draws of `Config.busyRead` were made (20_memory.md R61). -/
  draws : Nat
deriving DecidableEq, Repr

/-- Why an access stops. -/
inductive Fault where
  /-- `BusError(off)`: raised by `busAccess` for a host access of a width other than 32 bits, at an offset that is
  no multiple of 4, at a reserved offset or beyond the last limb (20_memory.md R51, R56, R57). It is a fault of the
  access: `step` hands it to the host as a reply, the engine's state is unchanged and the engine goes on (R207).
  Safe: the spec gives the access this response. -/
  | busError (off : Nat)
deriving DecidableEq, Repr

/-- Why an instruction has no meaning. -/
inductive Refusal where
  /-- Raised by no arm of `exec`: every command of the opcode table has its meaning. Safe: a refused instruction
  proves nothing. -/
  | notModelled (mnemonic : String)
deriving DecidableEq, Repr

/-- The machine right after reset (R35): every register of the register file, CMD, STATUS and CTRL 0, the phase
Idle. DESIGN CHOICE (log 1, log 2, log 3, log 4): the reference parameters, the reset input released, nothing
pending, no reply yet, no draw made. -/
def State.reset : State :=
  { params := Params.reference
    regs := Vector.replicate 16 0
    cmd := 0x00000000#32
    status := Status.reset
    ie := false
    phase := .idle
    resetInput := false
    pending := []
    replies := []
    draws := 0 }

end Sys2Proof.Machine
end

