-- ==== Sys2Proof/Machine/Arith.lean ====
section
/-! DEFINITION. The integer functions of the command rules (00_scope.md R13, R14; 41_gcd_stepper.md R124;
42_modexp.md R151, R152; 43_montgomery.md R170), in forms that evaluate. `Nat.gcd`, `/`, `%` and `^` of Lean are the
gcd, div, mod and power of R13: gcd(a, 0) = a, gcd(0, 0) = 0, a^0 = 1. -/

namespace Sys2Proof.Machine

/-- The recursion of R124 on `fuel` steps: EG(0, b) = (b, 0, 1), and otherwise
EG(a, b) = (g, t1 - (b div a)*s1, s1) with (g, s1, t1) = EG(b mod a, a). -/
def egFuel : Nat → Nat → Nat → Nat × Int × Int
  | 0, _, b => (b, 0, 1)
  | fuel + 1, a, b =>
    if a = 0 then (b, 0, 1)
    else
      let r := egFuel fuel (b % a) a
      (r.1, r.2.2 - ((b / a : Nat) : Int) * r.2.1, r.2.1)

/-- EG(a, b), the coefficient function of R124. Since b mod a < a, a steps of fuel are enough. -/
def eg (a b : Nat) : Nat × Int × Int := egFuel a a b

/-- tc_W(v): the W-bit two's-complement encoding of v, "that is v mod 2^W" (R14). -/
def tc (W : Nat) (v : Int) : Nat := (v % (2 ^ W : Nat)).toNat

/-- The loop of R152 on `fuel` rounds: `result`, `b` and `e` are the loop's variables. -/
def modPowLoop (n : Nat) : Nat → Nat → Nat → Nat → Nat
  | 0, result, _, _ => result
  | fuel + 1, result, b, e =>
    if e = 0 then result
    else modPowLoop n fuel (if e % 2 = 1 then result * b % n else result) (b * b % n) (e / 2)

/-- (a ^ e) mod n, the value of R151, computed by the loop of R152, which starts from 1 mod n. -/
def modPow (a e n : Nat) : Nat := modPowLoop n e (1 % n) (a % n) e

/-- The inverse of a mod n in [0, n), for gcd(a, n) = 1: "(g, s, t) <- EG(A, N); d <- s mod N" (R125). -/
def modInverse (a n : Nat) : Nat := ((eg a n).2.1 % (n : Int)).toNat

/-- R^-1 for the radix R = 2^W and odd n (R170): the inverse of R mod n, and 0 for n = 1. -/
def radixInverse (W n : Nat) : Nat := modInverse (2 ^ W) n

end Sys2Proof.Machine
end

