-- ==== Sys2Proof/Machine/Flags.lean ====
section
/-! DEFINITION. The flags Z, XS and YS (10_state.md R33) and the words that software reads: STATUS, CTRL, CONFIG and
the IRQ output (R25, R26, R27, R29). -/

namespace Sys2Proof.Machine

/-- The triple (Z, XS, YS) that a command writes at successful completion (R33). -/
structure Flags where
  z : Bool
  xs : Bool
  ys : Bool
deriving DecidableEq, Repr

/-- "Z is 1 exactly when the command's primary result is zero" and XS = YS = 0: every command except EGCD and NOP
(R33). -/
def zeroFlags (result : Nat) : Flags := { z := result == 0, xs := false, ys := false }

/-- EGCD's triple: (g = 0, s < 0, t < 0) (41_gcd_stepper.md R123). -/
def egcdFlags (g : Nat) (s t : Int) : Flags := { z := g == 0, xs := decide (s < 0), ys := decide (t < 0) }

/-- "STATUS.BUSY = 1 exactly when the phase is Busy" (R28). -/
def State.busy (s : State) : Bool :=
  match s.phase with
  | .idle => false
  | .busy _ => true

/-- The STATUS word, bit 31 first (R25). -/
def statusWord (s : State) : Word :=
  0#21 ++ BitVec.ofBool s.status.ys ++ BitVec.ofBool s.status.xs ++ BitVec.ofBool s.status.z ++
    s.status.errCode ++ BitVec.ofBool s.status.hz ++ BitVec.ofBool s.status.err ++
    BitVec.ofBool s.status.done ++ BitVec.ofBool s.busy

/-- The CTRL word, bit 31 first: SRST and the reserved bits read 0 (R26). -/
def ctrlWord (s : State) : Word := 0#31 ++ BitVec.ofBool s.ie

/-- The CONFIG word, bit 31 first: version, NREG, W (R27). -/
def configWord (p : Params) : Word := Config.version ++ Config.nreg ++ BitVec.ofNat 16 p.W

/-- The IRQ output: `IRQ = CTRL.IE and STATUS.DONE` (R29). -/
def State.irq (s : State) : Bool := s.ie && s.status.done

/-- The level that the engine drives on input `line` of the host's interrupt controller: IRQ on IRQ_LINE, nothing on
any other line (00_scope.md R11, 60_exceptions.md R209). -/
def State.irqOn (s : State) (line : Nat) : Bool := s.irq && line == s.params.irqLine

end Sys2Proof.Machine
end

