-- ==== Sys2Proof/Machine/Ops.lean ====
section
/-! DEFINITION. The shared operations: the register file and its limbs, acceptance, successful and error completion,
and reset (10_state.md R20 to R35, 20_memory.md R53, 60_exceptions.md R200 to R206, 70_reset_and_hazards.md R230,
R231). The engine's exception is the error completion `completeError`; there is no return from it (R206). -/

namespace Sys2Proof.Machine

/-! ## The register file (R20, R53) -/

/-- `x[i]`: register vi as an integer (R14). -/
def State.x (s : State) (i : Reg) : Nat := s.regs[i.val]

/-- `x[i] <- v` (R14). -/
def State.setX (s : State) (i : Reg) (v : Nat) : State := { s with regs := s.regs.set i.val v i.isLt }

/-- Limb j of a register value: its bits 32j+31 to 32j (R53). -/
def limbOf (v j : Nat) : Word := BitVec.ofNat 32 (v / 2 ^ (32 * j))

/-- A register value with limb j set and every other bit unchanged (R53). -/
def withLimb (v j : Nat) (limb : Word) : Nat :=
  v / 2 ^ (32 * (j + 1)) * 2 ^ (32 * (j + 1)) + limb.toNat * 2 ^ (32 * j) + v % 2 ^ (32 * j)

/-- A write of limb j of vi (R53). -/
def State.setLimb (s : State) (i : Reg) (j : Nat) (limb : Word) : State :=
  s.setX i (withLimb (s.x i) j limb)

/-! ## Completion (R31, R32) -/

/-- The error codes that version 1 produces (60_exceptions.md R201). -/
inductive ErrCode where
  | illegal
  | operand
  | modzero
  | modeven
  | range
  | noinv
deriving DecidableEq, Repr

/-- The 4-bit code of STATUS.ERRCODE (R201). -/
def ErrCode.code : ErrCode → BitVec 4
  | .illegal => 1#4
  | .operand => 2#4
  | .modzero => 3#4
  | .modeven => 4#4
  | .range => 5#4
  | .noinv => 6#4

/-- What `Exec(c, x)` returns: Ok(writes, flags), with no flags for NOP, or Err(code) (R31, R32, 30_encoding.md R92). -/
inductive Result where
  | ok (writes : List (Reg × Nat)) (flags : Option Flags)
  | err (code : ErrCode)
deriving DecidableEq, Repr

/-- "for each (i, v) in writes: x[i] <- v" (R31). -/
def State.writeAll (s : State) : List (Reg × Nat) → State
  | [] => s
  | (i, v) :: rest => (s.setX i v).writeAll rest

/-- "if flags != none: (STATUS.Z, STATUS.XS, STATUS.YS) <- flags" (R31). -/
def State.writeFlags (s : State) : Option Flags → State
  | none => s
  | some f => { s with status := { s.status with z := f.z, xs := f.xs, ys := f.ys } }

/-- Successful completion (R31). -/
def State.completeOk (s : State) (writes : List (Reg × Nat)) (flags : Option Flags) : State :=
  let t := (s.writeAll writes).writeFlags flags
  { t with status := { t.status with err := false, errCode := 0#4, done := true }, phase := .idle }

/-- Error completion: the code is recorded, nothing else is written (R32, 60_exceptions.md R200, R205). -/
def State.completeError (s : State) (e : ErrCode) : State :=
  { s with status := { s.status with err := true, errCode := e.code, done := true }, phase := .idle }

/-- The completion step of a command with the given result (R31, R32). -/
def complete (r : Result) (s : State) : Host.Outcome State Fault Refusal :=
  match r with
  | .ok writes flags => .next (s.completeOk writes flags)
  | .err e => .next (s.completeError e)

/-- The result of a command whose one destination is rd: its value there and Z by that value (R33). -/
def okOne (rd : Reg) (v : Nat) : Result := .ok [(rd, v)] (some (zeroFlags v))

/-! ## Acceptance (R30) -/

/-- Acceptance of command word c by an idle engine (R30, the `else` branch). -/
def State.load (s : State) (c : Word) : State :=
  { s with cmd := c, status := { s.status with done := false, err := false, errCode := 0#4 }, phase := .busy c }

/-- STATUS.HZ <- 1 (20_memory.md R61). -/
def State.hazard (s : State) : State := { s with status := { s.status with hz := true } }

/-- A write of c to CMD: dropped with HZ set while busy, otherwise accepted (R30). -/
def State.issue (s : State) (c : Word) : State := if s.busy then s.hazard else s.load c

/-! ## Reset (R35, R230, R231) -/

/-- Every piece of the engine's state takes its reset value, and a command in flight is abandoned (R230, R231).
The parameters, the reset input, the pending events, the replies and the count of draws are not the engine's and stay. -/
def State.engineReset (s : State) : State :=
  { s with
    regs := Vector.replicate 16 0
    cmd := 0x00000000#32
    status := Status.reset
    ie := false
    phase := .idle }

/-- "While the engine's reset input is asserted ... every piece of state takes the value of R35" (R230). -/
def State.held (s : State) : State := if s.resetInput then s.engineReset else s

end Sys2Proof.Machine
end

