-- ==== Sys2Proof/Machine/Operands.lean ====
section
/-! DEFINITION. Operands and the checks on them: A, B and N of a command, the immediate, and the conditions of
OPERAND, MODZERO, MODEVEN and RANGE (00_scope.md R14, 30_encoding.md R87, R88, 60_exceptions.md R201 to R203). -/

namespace Sys2Proof.Machine

/-- W of the machine (00_scope.md R7). -/
abbrev State.W (s : State) : Nat := s.params.W

/-- `zext_W(imm16)`: SETI's operand, zero-extended and never scaled (R87). -/
def zextImm (imm16 : BitVec 16) : Nat := imm16.toNat

/-- The OPERAND check of GCDSTEP: "rd = rs1 or rd = rs2 or rs1 = rs2" is the violation (41_gcd_stepper.md R122). -/
def gcdstepOperandsOk (rd rs1 rs2 : Reg) : Bool := !(rd == rs1 || rd == rs2 || rs1 == rs2)

/-- The OPERAND check of EGCD: "rd > 13" is the violation (41_gcd_stepper.md R123). -/
def egcdOperandsOk (rd : Reg) : Bool := !(13 < rd.val)

/-- Register v(i+k), for a group that R123's check keeps within v15. -/
def regPlus (i : Reg) (k : Nat) : Reg := Fin.ofNat 16 (i.val + k)

/-- The common checks of the Montgomery family, in R171's order: MODZERO, MODEVEN, then RANGE on each data operand.
`none` says that every check passes. -/
def montCheck (n : Nat) (operands : List Nat) : Option ErrCode :=
  if n = 0 then some .modzero
  else if n % 2 = 0 then some .modeven
  else if operands.any (fun d => decide (n ≤ d)) then some .range
  else none

end Sys2Proof.Machine
end

