-- ==== Sys2Proof/Machine/Bus.lean ====
section
/-! DEFINITION. The register window as the host reaches it (20_memory.md R50 to R61; 10_state.md R24 to R27). -/

namespace Sys2Proof.Machine

/-! ## The address map (R50, R52, R53) -/

/-- What an offset of the window names (R52). -/
inductive Target where
  | id
  | config
  | cmd
  | status
  | ctrl
  /-- Limb j of register vi (R53). -/
  | limb (i : Reg) (j : Nat)
deriving DecidableEq, Repr

/-- `off(i, j) = 0x1000 + 0x400*i + 4*j` (R53). -/
def limbOffset (i : Reg) (j : Nat) : Nat := 0x1000 + 0x400 * i.val + 4 * j

/-- The address map (R52). `none` is a reserved offset (R57) or an offset beyond the last limb (R56): a bus error. -/
def targetOf (p : Params) (off : Nat) : Option Target :=
  if off = 0x0000 then some .id
  else if off = 0x0004 then some .config
  else if off = 0x0008 then some .cmd
  else if off = 0x000C then some .status
  else if off = 0x0010 then some .ctrl
  else if 0x1000 ≤ off ∧ off < 0x5000 then
    let i := (off - 0x1000) / 0x400
    let j := (off - 0x1000) % 0x400 / 4
    if j < p.limbs then some (.limb (Fin.ofNat 16 i) j) else none
  else none

/-- The offset in the register window of a bus address, or `none` where the address lies outside it (R50). -/
def windowOffset (p : Params) (addr : Nat) : Option Nat :=
  if p.base ≤ addr ∧ addr < p.base + Config.windowBytes then some (addr - p.base) else none

/-! ## Reads and writes (R24 to R27, R53, R58, R61) -/

/-- A read of a target: the word it gives, and the state after. Only a register-file read while busy has a side
effect: it gives a draw and sets HZ (R58, R61). -/
def readTarget (t : Target) (s : State) : Word × State :=
  match t with
  | .id => (Config.idWord, s)
  | .config => (configWord s.params, s)
  | .cmd => (s.cmd, s)
  | .status => (statusWord s, s)
  | .ctrl => (ctrlWord s, s)
  | .limb i j =>
    if s.busy then (Config.busyRead s.draws, { s.hazard with draws := s.draws + 1 })
    else (limbOf (s.x i) j, s)

/-- A write of v to STATUS: a 1 clears DONE or HZ, every other bit is ignored (R25). -/
def writeStatus (v : Word) (s : State) : State :=
  { s with status :=
      { s.status with done := s.status.done && !v.getLsbD 1, hz := s.status.hz && !v.getLsbD 3 } }

/-- A write of v to CTRL: with SRST = 1 the soft reset, the other bits ignored; otherwise IE <- v[0] (R26, R231). -/
def writeCtrl (v : Word) (s : State) : State :=
  if v.getLsbD 1 then s.engineReset else { s with ie := v.getLsbD 0 }

/-- A write of v to a target (R58). ID and CONFIG ignore it (R27). A register-file write while busy is dropped and
sets HZ (R61), and so is a CMD write (R30). -/
def writeTarget (t : Target) (v : Word) (s : State) : State :=
  match t with
  | .id => s
  | .config => s
  | .cmd => s.issue v
  | .status => writeStatus v s
  | .ctrl => writeCtrl v s
  | .limb i j => if s.busy then s.hazard else s.setLimb i j v

/-- One host access at an offset of the window. The checks of R51, R56 and R57 come first: such an access is the
fault `BusError(off)` and nothing else happens (R61, R207). -/
def busAccess (off bytes : Nat) (op : AccessOp) (s : State) : Except Fault (State × Reply) :=
  if bytes ≠ 4 ∨ off % 4 ≠ 0 then .error (.busError off)
  else
    match targetOf s.params off with
    | none => .error (.busError off)
    | some t =>
      match op with
      | .read => .ok ((readTarget t s).2, .data off (readTarget t s).1)
      | .write v => .ok (writeTarget t v s, .written off)

/-- The bus answers the host. -/
def State.answer (s : State) (r : Reply) : State := { s with replies := s.replies ++ [r] }

/-- The state after a host access arrives. An address outside the window is not the engine's (R50): nothing happens
and the engine answers nothing (log 2). A bus error changes no engine state and goes to the host (R207). -/
def State.serve (s : State) (a : Access) : State :=
  match windowOffset s.params a.addr with
  | none => s
  | some off =>
    match busAccess off a.bytes a.op s with
    | .ok (t, r) => t.answer r
    | .error (.busError o) => s.answer (.busError o)

end Sys2Proof.Machine
end

