-- ==== Sys2Proof/Machine/GcdStepper.lean ====
section
/-! DEFINITION. The gcd_stepper: GCD, GCDSTEP, EGCD and MODINV (41_gcd_stepper.md). -/

namespace Sys2Proof.Machine

/-- GCD vd, va, vb (R121): x[rd] <- gcd(A, B). -/
def execGcd (rd rs1 rs2 : Reg) (s : State) : Host.Outcome State Fault Refusal :=
  complete (okOne rd (Nat.gcd (s.x rs1) (s.x rs2))) s

/-- GCDSTEP vq, va, vb (R122): one Euclidean reduction step in place. With B = 0 nothing is written and Z = 1. -/
def execGcdstep (rd rs1 rs2 : Reg) (s : State) : Host.Outcome State Fault Refusal :=
  let a := s.x rs1
  let b := s.x rs2
  complete
    (if gcdstepOperandsOk rd rs1 rs2 then
      if b = 0 then .ok [] (some { z := true, xs := false, ys := false })
      else .ok [(rs1, b), (rs2, a % b), (rd, a / b)] (some (zeroFlags (a % b)))
    else .err .operand) s

/-- EGCD vd, va, vb (R123): the group rd, rd+1, rd+2 takes g, tc_W(s) and tc_W(t) of EG(A, B). -/
def execEgcd (rd rs1 rs2 : Reg) (s : State) : Host.Outcome State Fault Refusal :=
  let r := eg (s.x rs1) (s.x rs2)
  complete
    (if egcdOperandsOk rd then
      .ok [(rd, r.1), (regPlus rd 1, tc s.W r.2.1), (regPlus rd 2, tc s.W r.2.2)]
        (some (egcdFlags r.1 r.2.1 r.2.2))
    else .err .operand) s

/-- MODINV vd, va, vm (R125): MODZERO, then NOINV, else the inverse of A mod N in [0, N). -/
def execModinv (rd rs1 rs3 : Reg) (s : State) : Host.Outcome State Fault Refusal :=
  complete
    (if s.x rs3 = 0 then .err .modzero
    else if Nat.gcd (s.x rs1) (s.x rs3) ≠ 1 then .err .noinv
    else okOne rd (modInverse (s.x rs1) (s.x rs3))) s

end Sys2Proof.Machine
end

