-- ==== Sys2Proof/Machine/ModExp.lean ====
section
/-! DEFINITION. The modular_exponentiation_engine: MODMUL and MODEXP (42_modexp.md). -/

namespace Sys2Proof.Machine

/-- MODMUL vd, va, vb, vm (R150): (A * B) mod N, the product formed exactly. -/
def execModmul (rd rs1 rs2 rs3 : Reg) (s : State) : Host.Outcome State Fault Refusal :=
  complete
    (if s.x rs3 = 0 then .err .modzero
    else okOne rd (s.x rs1 * s.x rs2 % s.x rs3)) s

/-- MODEXP vd, va, ve, vm (R151): (A ^ B) mod N. -/
def execModexp (rd rs1 rs2 rs3 : Reg) (s : State) : Host.Outcome State Fault Refusal :=
  complete
    (if s.x rs3 = 0 then .err .modzero
    else okOne rd (modPow (s.x rs1) (s.x rs2) (s.x rs3))) s

end Sys2Proof.Machine
end

