-- ==== Sys2Proof/Machine/Montgomery.lean ====
section
/-! DEFINITION. The montgomery_multiplier: MONTMUL, TOMONT, FROMMONT and MONTR2, with the radix R = 2^W
(43_montgomery.md). -/

namespace Sys2Proof.Machine

/-- The result of a Montgomery command: the first failing check of R171, or the value `v` in rd. -/
def montResult (rd : Reg) (n : Nat) (operands : List Nat) (v : Nat) : Result :=
  match montCheck n operands with
  | some e => .err e
  | none => okOne rd v

/-- MONTMUL vd, va, vb, vm (R172): (A * B * R^-1) mod N. -/
def execMontmul (rd rs1 rs2 rs3 : Reg) (s : State) : Host.Outcome State Fault Refusal :=
  complete (montResult rd (s.x rs3) [s.x rs1, s.x rs2]
    (s.x rs1 * s.x rs2 * radixInverse s.W (s.x rs3) % s.x rs3)) s

/-- TOMONT vd, va, vm (R173): (A * R) mod N. -/
def execTomont (rd rs1 rs3 : Reg) (s : State) : Host.Outcome State Fault Refusal :=
  complete (montResult rd (s.x rs3) [s.x rs1] (s.x rs1 * 2 ^ s.W % s.x rs3)) s

/-- FROMMONT vd, va, vm (R174): (A * R^-1) mod N. -/
def execFrommont (rd rs1 rs3 : Reg) (s : State) : Host.Outcome State Fault Refusal :=
  complete (montResult rd (s.x rs3) [s.x rs1] (s.x rs1 * radixInverse s.W (s.x rs3) % s.x rs3)) s

/-- MONTR2 vd, vm (R175): 2^(2W) mod N. -/
def execMontr2 (rd rs3 : Reg) (s : State) : Host.Outcome State Fault Refusal :=
  complete (montResult rd (s.x rs3) [] (2 ^ (2 * s.W) % s.x rs3)) s

end Sys2Proof.Machine
end

