-- ==== Sys2Proof/Machine/Utility.lean ====
section
/-! DEFINITION. NOP, MOV and SETI (40_utility.md). -/

namespace Sys2Proof.Machine

/-- NOP (R100): `return Ok([], none)`. -/
def execNop (s : State) : Host.Outcome State Fault Refusal := complete (.ok [] none) s

/-- MOV vd, va (R101): x[rd] <- A. -/
def execMov (rd rs1 : Reg) (s : State) : Host.Outcome State Fault Refusal := complete (okOne rd (s.x rs1)) s

/-- SETI vd, imm (R102): x[rd] <- zext_W(imm16). -/
def execSeti (rd : Reg) (imm16 : BitVec 16) (s : State) : Host.Outcome State Fault Refusal :=
  complete (okOne rd (zextImm imm16)) s

end Sys2Proof.Machine
end

