-- ==== Sys2Proof/Machine/Dispatch.lean ====
section
/-! DEFINITION. The completion of each command: one arm per constructor of Instr (30_encoding.md R92). -/

namespace Sys2Proof.Machine

def exec (i : Instr) (s : State) : Host.Outcome State Fault Refusal :=
  match i with
  | .nop => Sys2Proof.Machine.execNop s
  | .mov rd rs1 => Sys2Proof.Machine.execMov rd rs1 s
  | .seti rd imm16 => Sys2Proof.Machine.execSeti rd imm16 s
  | .gcd rd rs1 rs2 => Sys2Proof.Machine.execGcd rd rs1 rs2 s
  | .gcdstep rd rs1 rs2 => Sys2Proof.Machine.execGcdstep rd rs1 rs2 s
  | .egcd rd rs1 rs2 => Sys2Proof.Machine.execEgcd rd rs1 rs2 s
  | .modinv rd rs1 rs3 => Sys2Proof.Machine.execModinv rd rs1 rs3 s
  | .modmul rd rs1 rs2 rs3 => Sys2Proof.Machine.execModmul rd rs1 rs2 rs3 s
  | .modexp rd rs1 rs2 rs3 => Sys2Proof.Machine.execModexp rd rs1 rs2 rs3 s
  | .montmul rd rs1 rs2 rs3 => Sys2Proof.Machine.execMontmul rd rs1 rs2 rs3 s
  | .tomont rd rs1 rs3 => Sys2Proof.Machine.execTomont rd rs1 rs3 s
  | .frommont rd rs1 rs3 => Sys2Proof.Machine.execFrommont rd rs1 rs3 s
  | .montr2 rd rs3 => Sys2Proof.Machine.execMontr2 rd rs3 s

end Sys2Proof.Machine
end

