-- ==== Sys2Proof/Machine/Engine.lean ====
section
/-! DEFINITION. The steps that `step` chooses among: the completion of the accepted command, a host access, and a
change of the reset input (10_state.md R31, R32; 30_encoding.md R92; 20_memory.md R62; 70_reset_and_hazards.md R230). -/

namespace Sys2Proof.Machine

/-- The completion of accepted command word c: the command that it decodes to, or ILLEGAL (30_encoding.md R92). -/
def runCommand (c : Word) (s : State) : Host.Outcome State Fault Refusal :=
  match decode c with
  | .ok i => exec i s
  | .error _ => .next (s.completeError .illegal)

/-- A turn of the engine: it completes the command in flight; an idle engine keeps its state (60_exceptions.md R217);
an engine held in reset takes the reset values (70_reset_and_hazards.md R230). -/
def engineTurn (s : State) : Host.Outcome State Fault Refusal :=
  if s.resetInput then .next s.engineReset
  else
    match s.phase with
    | .idle => .next s
    | .busy c => runCommand c s

/-- One event of the order of 20_memory.md R62, in the state that no longer lists it. DESIGN CHOICE (log 4): an event
that asserts an asserted reset input or releases a released one resets the engine as a change does; a command in flight
is then abandoned. R230 gives no such event a meaning. -/
def perform (e : Event) (s : State) : Host.Outcome State Fault Refusal :=
  match e with
  | .bus a => .next (s.serve a).held
  | .engine => engineTurn s
  | .resetInput asserted => .next { s with resetInput := asserted }.engineReset

/-- The state with command word c accepted and the very next step the engine's: what a CMD write of c leaves
(10_state.md R30) with the completion placed first in the order of R62, and the reset input released. -/
def State.acceptNow (s : State) (c : Word) : State :=
  let t := s.load c
  { t with resetInput := false, pending := .engine :: s.pending }

end Sys2Proof.Machine
end

