-- ==== Sys2Proof/Machine/Step.lean ====
section
/-! DEFINITION. One step of the machine: the next event of the total order of 20_memory.md R62. -/

namespace Sys2Proof.Machine

/-- One step. It performs the first pending event; with none pending, the engine takes its turn, so that completion is
always enabled while the engine is busy (70_reset_and_hazards.md R240). -/
def step (s : State) : Host.Outcome State Fault Refusal :=
  match s.pending with
  | [] => engineTurn s
  | e :: rest => perform e { s with pending := rest }

/-- s with the command of a table word accepted, so that the very next step runs it (log 9). -/
def State.withFetchWord (s : State) (nbits w : Nat) : State :=
  s.acceptNow (BitVec.ofNat 32 (w % 2 ^ nbits))

end Sys2Proof.Machine
end

