-- ==== Sys2Proof/Machine/Assembly.lean ====
section
/-! DEFINITION. The assembly syntax of one command and the pseudo-instructions (30_encoding.md R89, R90): a line as
characters, its mnemonic and operands, and the command. The engine never sees them: a host's assembler does. -/

namespace Sys2Proof.Machine

/-- The mnemonics of R89 and the pseudo-instructions of R90. -/
inductive AsmName where
  | nop | mov | seti | gcd | gcdstep | egcd | modinv | modmul | modexp | montmul | tomont | frommont | montr2
  | clr | li | modsqr | montsqr
deriving DecidableEq, Repr

/-- An operand as written: a register name `v<n>` or an immediate (R89). -/
inductive AsmOperand where
  | v (n : Nat)
  | imm (n : Nat)
deriving DecidableEq, Repr

/-- "registers spelled `v0` to `v15`"; any other register name is refused (R89). -/
def asmReg : AsmOperand → Option Reg
  | .v n => if h : n < 16 then some ⟨n, h⟩ else none
  | .imm _ => none

/-- Immediates "in [0, 65535]"; any other is refused (R89). -/
def asmImm : AsmOperand → Option (BitVec 16)
  | .v _ => none
  | .imm n => if n < 65536 then some (BitVec.ofNat 16 n) else none

/-- The command of a line of assembly, the destination first, or `none` where "an assembler must refuse" (R89). A
pseudo-instruction is the one command that R90 expands it to. -/
def assemble (name : AsmName) (operands : List AsmOperand) : Option Instr :=
  match name, operands with
  | .nop, [] => some .nop
  | .mov, [d, a] => do return .mov (← asmReg d) (← asmReg a)
  | .seti, [d, n] => do return .seti (← asmReg d) (← asmImm n)
  | .gcd, [d, a, b] => do return .gcd (← asmReg d) (← asmReg a) (← asmReg b)
  | .gcdstep, [q, a, b] => do return .gcdstep (← asmReg q) (← asmReg a) (← asmReg b)
  | .egcd, [d, a, b] => do
    let rd ← asmReg d
    if 13 < rd.val then none else return .egcd rd (← asmReg a) (← asmReg b)
  | .modinv, [d, a, m] => do return .modinv (← asmReg d) (← asmReg a) (← asmReg m)
  | .modmul, [d, a, b, m] => do return .modmul (← asmReg d) (← asmReg a) (← asmReg b) (← asmReg m)
  | .modexp, [d, a, e, m] => do return .modexp (← asmReg d) (← asmReg a) (← asmReg e) (← asmReg m)
  | .montmul, [d, a, b, m] => do return .montmul (← asmReg d) (← asmReg a) (← asmReg b) (← asmReg m)
  | .tomont, [d, a, m] => do return .tomont (← asmReg d) (← asmReg a) (← asmReg m)
  | .frommont, [d, a, m] => do return .frommont (← asmReg d) (← asmReg a) (← asmReg m)
  | .montr2, [d, m] => do return .montr2 (← asmReg d) (← asmReg m)
  | .clr, [d] => do return .seti (← asmReg d) 0#16
  | .li, [d, n] => do return .seti (← asmReg d) (← asmImm n)
  | .modsqr, [d, a, m] => do return .modmul (← asmReg d) (← asmReg a) (← asmReg a) (← asmReg m)
  | .montsqr, [d, a, m] => do return .montmul (← asmReg d) (← asmReg a) (← asmReg a) (← asmReg m)
  | _, _ => none

/-- A register as R89 spells it. -/
def asmOfReg (r : Reg) : AsmOperand := .v r.val

/-- A command as R89 writes it. -/
def disassemble : Instr → AsmName × List AsmOperand
  | .nop => (.nop, [])
  | .mov rd rs1 => (.mov, [rd, rs1].map asmOfReg)
  | .seti rd imm16 => (.seti, [asmOfReg rd, .imm imm16.toNat])
  | .gcd rd rs1 rs2 => (.gcd, [rd, rs1, rs2].map asmOfReg)
  | .gcdstep rd rs1 rs2 => (.gcdstep, [rd, rs1, rs2].map asmOfReg)
  | .egcd rd rs1 rs2 => (.egcd, [rd, rs1, rs2].map asmOfReg)
  | .modinv rd rs1 rs3 => (.modinv, [rd, rs1, rs3].map asmOfReg)
  | .modmul rd rs1 rs2 rs3 => (.modmul, [rd, rs1, rs2, rs3].map asmOfReg)
  | .modexp rd rs1 rs2 rs3 => (.modexp, [rd, rs1, rs2, rs3].map asmOfReg)
  | .montmul rd rs1 rs2 rs3 => (.montmul, [rd, rs1, rs2, rs3].map asmOfReg)
  | .tomont rd rs1 rs3 => (.tomont, [rd, rs1, rs3].map asmOfReg)
  | .frommont rd rs1 rs3 => (.frommont, [rd, rs1, rs3].map asmOfReg)
  | .montr2 rd rs3 => (.montr2, [rd, rs3].map asmOfReg)

/-! ## Lines of text (R89)

A line is its list of characters. What R89 leaves open is fixed by log 10: spaces around the mnemonic and the operands
are of no account, hexadecimal digits may be of either case, and a register number has no leading zero. -/

/-- "the mnemonic in upper case", with the mnemonic that each spells. -/
def asmNames : List (List Char × AsmName) :=
  [ (['N', 'O', 'P'], .nop), (['M', 'O', 'V'], .mov), (['S', 'E', 'T', 'I'], .seti), (['G', 'C', 'D'], .gcd),
    (['G', 'C', 'D', 'S', 'T', 'E', 'P'], .gcdstep), (['E', 'G', 'C', 'D'], .egcd),
    (['M', 'O', 'D', 'I', 'N', 'V'], .modinv), (['M', 'O', 'D', 'M', 'U', 'L'], .modmul),
    (['M', 'O', 'D', 'E', 'X', 'P'], .modexp) ] ++
  [ (['M', 'O', 'N', 'T', 'M', 'U', 'L'], .montmul), (['T', 'O', 'M', 'O', 'N', 'T'], .tomont),
    (['F', 'R', 'O', 'M', 'M', 'O', 'N', 'T'], .frommont), (['M', 'O', 'N', 'T', 'R', '2'], .montr2),
    (['C', 'L', 'R'], .clr), (['L', 'I'], .li), (['M', 'O', 'D', 'S', 'Q', 'R'], .modsqr),
    (['M', 'O', 'N', 'T', 'S', 'Q', 'R'], .montsqr) ]

/-- The characters without the spaces before and after them. -/
def trimSpaces (t : List Char) : List Char :=
  ((t.dropWhile (· == ' ')).reverse.dropWhile (· == ' ')).reverse

/-- The parts between commas: one more than there are commas. -/
def splitCommas : List Char → List (List Char)
  | [] => [[]]
  | c :: rest =>
    match splitCommas rest with
    | [] => [[c]]
    | part :: parts => if c = ',' then [] :: part :: parts else (c :: part) :: parts

/-- The value of a hexadecimal digit. -/
def hexDigit (c : Char) : Option Nat :=
  if '0' ≤ c ∧ c ≤ '9' then some (c.toNat - '0'.toNat)
  else if 'a' ≤ c ∧ c ≤ 'f' then some (c.toNat - 'a'.toNat + 10)
  else if 'A' ≤ c ∧ c ≤ 'F' then some (c.toNat - 'A'.toNat + 10)
  else none

/-- The number that digits of the given base spell after `acc`, or `none` where one of them is no such digit. -/
def digitsValue (base : Nat) : List Char → Nat → Option Nat
  | [], acc => some acc
  | c :: rest, acc =>
    match hexDigit c with
    | some d => if d < base then digitsValue base rest (acc * base + d) else none
    | none => none

/-- A number of at least one digit. -/
def numberOf (base : Nat) (digits : List Char) : Option Nat :=
  if digits = [] then none else digitsValue base digits 0

/-- One operand: "registers spelled `v0` to `v15`", immediates "decimal or 0x-hexadecimal". -/
def asmOperandOf : List Char → Option AsmOperand
  | ['v', '0'] => some (.v 0)
  | 'v' :: '0' :: _ => none
  | 'v' :: digits => (numberOf 10 digits).map .v
  | '0' :: 'x' :: digits => (numberOf 16 digits).map .imm
  | digits => (numberOf 10 digits).map .imm

/-- "operands separated by commas". -/
def asmOperandsOf (t : List Char) : Option (List AsmOperand) :=
  if t = [] then some [] else (splitCommas t).mapM (fun part => asmOperandOf (trimSpaces part))

/-- The command of a line of text, or `none` where an assembler must refuse the line (R89). -/
def assembleLine (line : List Char) : Option Instr := do
  let t := trimSpaces line
  let entry ← asmNames.find? (fun e => e.1 == t.takeWhile (· != ' '))
  let operands ← asmOperandsOf (trimSpaces (t.dropWhile (· != ' ')))
  assemble entry.2 operands

end Sys2Proof.Machine
end

