-- ==== Sys2Proof/Machine/HostNotation.lean ====
section
/-! DEFINITION. The host steps of 30_encoding.md R91 as events, for a machine with the given parameters. The host's
branches (`IF cond GOTO label`) and loops are host code and no part of the engine (10_state.md R23). -/

namespace Sys2Proof.Machine

/-- `WR off, v`. -/
def hostWrite (p : Params) (off : Nat) (v : Word) : Event := .bus { addr := p.base + off, bytes := 4, op := .write v }

/-- `RD off`. -/
def hostRead (p : Params) (off : Nat) : Event := .bus { addr := p.base + off, bytes := 4, op := .read }

/-- `ISSUE <command>`: `WR 0x0008, <encoding of command>`. -/
def hostIssue (p : Params) (i : Instr) : Event := hostWrite p 0x0008 (encode i)

/-- `WAIT` where the completion falls after n polls of STATUS: n reads that show BUSY, the completion, and the read
that shows `s[0] = 0`. -/
def hostWait (p : Params) (n : Nat) : List Event :=
  List.replicate n (hostRead p 0x000C) ++ [.engine, hostRead p 0x000C]

/-- `LOAD vi, value`: "`WR off(i, j), value[32j+31:32j]` for every j in [0, W/32)". -/
def hostLoad (p : Params) (i : Reg) (value : Nat) : List Event :=
  (List.range p.limbs).map (fun j => hostWrite p (limbOffset i j) (limbOf value j))

/-- `READ vi`: "`RD off(i, j)` for every j". -/
def hostReadReg (p : Params) (i : Reg) : List Event :=
  (List.range p.limbs).map (fun j => hostRead p (limbOffset i j))

/-- The value that the limbs of one register spell, limb 0 first: the sum of 20_memory.md R55. -/
def valueOfLimbs : List Word → Nat
  | [] => 0
  | limb :: rest => limb.toNat + 2 ^ 32 * valueOfLimbs rest

/-- A host loop that repeats one command k times, such as "repeating GCDSTEP until STATUS.Z = 1" (10_state.md R23). -/
def repeatCommand (i : Instr) : Nat → State → Host.Outcome State Fault Refusal
  | 0, s => .next s
  | k + 1, s =>
    match exec i s with
    | .next t => repeatCommand i k t
    | .fault f => .fault f
    | .refused r => .refused r

end Sys2Proof.Machine
end

