-- ==== Sys2Proof/Safety.lean ====
section
/-! DEFINITION. The terms that the statements use: the invariant of the machine, what a completion leaves, and which
host accesses break the sequencing discipline. -/

namespace Sys2Proof.Machine

/-! ## The invariant -/

/-- What holds in every state that the machine reaches. -/
structure EngineInv (s : State) : Prop where
  /-- Every register is in [0, 2^W) (10_state.md R20). -/
  regs_lt : ∀ i, s.x i < 2 ^ s.W
  /-- While a command is in flight, CMD holds its word and DONE, ERR and ERRCODE are 0 (R25, R30). -/
  busy_fields : ∀ c, s.phase = .busy c →
    s.cmd = c ∧ s.status.done = false ∧ s.status.err = false ∧ s.status.errCode = 0#4
  /-- ERRCODE is 0 exactly when ERR = 0 (R25). -/
  err_iff_code : s.status.err = true ↔ s.status.errCode ≠ 0#4
  /-- Codes 7 to 15 are never produced (60_exceptions.md R201). -/
  code_le : s.status.errCode.toNat ≤ 6
  /-- XS and YS are never both 1, and both are 0 when Z = 1 (41_gcd_stepper.md R123, R124). -/
  signs : (s.status.xs = true → s.status.ys = false) ∧
    (s.status.z = true → s.status.xs = false ∧ s.status.ys = false)
  /-- While the reset input is asserted the engine holds its reset values (70_reset_and_hazards.md R230). -/
  held : s.resetInput = true → s.engineReset = s

/-! ## What a completion leaves (10_state.md R31, R32) -/

/-- What no command writes: the parameters, CMD, CTRL.IE, HZ, and what belongs to the outside. -/
structure CommandFrame (s t : State) : Prop where
  params : t.params = s.params
  cmd : t.cmd = s.cmd
  ie : t.ie = s.ie
  hz : t.status.hz = s.status.hz
  resetInput : t.resetInput = s.resetInput
  pending : t.pending = s.pending
  replies : t.replies = s.replies
  draws : t.draws = s.draws

/-- t is s after a successful completion (R31) with flags (z, xs, ys): ERR, ERRCODE and BUSY are 0, DONE is 1, and
what no command writes is unchanged. It leaves open the register file. -/
structure Succeeded (s t : State) (z xs ys : Bool) : Prop where
  frame : CommandFrame s t
  phase : t.phase = .idle
  done : t.status.done = true
  err : t.status.err = false
  errCode : t.status.errCode = 0#4
  z : t.status.z = z
  xs : t.status.xs = xs
  ys : t.status.ys = ys

/-- t is s after an error completion with code e (R32): the code is recorded, BUSY is 0, DONE is 1, and the register
file, Z, XS, YS, CMD and what no command writes are unchanged. -/
structure Failed (s t : State) (e : ErrCode) : Prop where
  frame : CommandFrame s t
  phase : t.phase = .idle
  done : t.status.done = true
  err : t.status.err = true
  errCode : t.status.errCode = e.code
  regs : ∀ i, t.x i = s.x i
  z : t.status.z = s.status.z
  xs : t.status.xs = s.status.xs
  ys : t.status.ys = s.status.ys

/-- Every register but those of `written` is unchanged. -/
def RegsKeptExcept (s t : State) (written : List Reg) : Prop := ∀ i, i ∉ written → t.x i = s.x i

/-- The signed integer that a W-bit two's-complement value stands for: its sign is bit W-1
(41_gcd_stepper.md R123). -/
def signedValue (W v : Nat) : Int := if v < 2 ^ (W - 1) then (v : Int) else (v : Int) - (2 ^ W : Nat)

/-- The checks of a command in the order of 60_exceptions.md R203, each with the code it reports: the register-field
constraint, the zero modulus, the even modulus, the range of the data operands (A before B), the missing inverse.
ILLEGAL comes before all of them and is no check of a decoded command (R202). -/
def errorChecks (s : State) : Instr → List (Bool × ErrCode)
  | .nop => []
  | .mov _ _ => []
  | .seti _ _ => []
  | .gcd _ _ _ => []
  | .gcdstep rd rs1 rs2 => [(decide (rd = rs1 ∨ rd = rs2 ∨ rs1 = rs2), .operand)]
  | .egcd rd _ _ => [(decide (13 < rd.val), .operand)]
  | .modinv _ rs1 rs3 =>
    [(decide (s.x rs3 = 0), .modzero), (decide (Nat.gcd (s.x rs1) (s.x rs3) ≠ 1), .noinv)]
  | .modmul _ _ _ rs3 => [(decide (s.x rs3 = 0), .modzero)]
  | .modexp _ _ _ rs3 => [(decide (s.x rs3 = 0), .modzero)]
  | .montmul _ rs1 rs2 rs3 =>
    [(decide (s.x rs3 = 0), .modzero), (decide (s.x rs3 % 2 = 0), .modeven),
      (decide (s.x rs1 ≥ s.x rs3), .range), (decide (s.x rs2 ≥ s.x rs3), .range)]
  | .tomont _ rs1 rs3 =>
    [(decide (s.x rs3 = 0), .modzero), (decide (s.x rs3 % 2 = 0), .modeven), (decide (s.x rs1 ≥ s.x rs3), .range)]
  | .frommont _ rs1 rs3 =>
    [(decide (s.x rs3 = 0), .modzero), (decide (s.x rs3 % 2 = 0), .modeven), (decide (s.x rs1 ≥ s.x rs3), .range)]
  | .montr2 _ rs3 => [(decide (s.x rs3 = 0), .modzero), (decide (s.x rs3 % 2 = 0), .modeven)]

/-- The code of the first check that applies, "exactly one code, the first that applies" (60_exceptions.md R203). -/
def firstError (s : State) (i : Instr) : Option ErrCode :=
  ((errorChecks s i).find? (fun c => c.1)).map Prod.snd

/-! ## The sequencing discipline (70_reset_and_hazards.md R234) -/

/-- The access is of 32 bits, aligned, in the window, and names target t with no bus error. -/
def Access.names (a : Access) (p : Params) (t : Target) : Prop :=
  ∃ off, windowOffset p a.addr = some off ∧ a.bytes = 4 ∧ off % 4 = 0 ∧ targetOf p off = some t

/-- The access breaks the rule of 20_memory.md R61 if it arrives while the engine is busy: it accesses the register
file, or writes CMD. -/
def Access.breaksBusyRule (a : Access) (p : Params) : Prop :=
  (∃ i j, a.names p (.limb i j)) ∨ (a.names p .cmd ∧ ∃ v, a.op = .write v)

end Sys2Proof.Machine
end

