-- ==== Sys2Proof/Certificates/Slice0/Obligations.lean ====
section
/-! DEFINITION. The statements about the engine. Each says which rule of spec/ it formalises. W is any legal width in
all of them: it is a field of the state (log 1). Where a statement speaks of `busyRead`, it holds for every value that
the free value has (log 3). -/

open Sys2Proof Sys2Proof.Machine

/-! ## Encoding (30_encoding.md) -/

/-- R81, R82, R84, R92: decoding the word of any command gives the command back, with every field at every value. -/
def Obligations.DecodeOfEncode : Prop := ∀ i : Instr, decode (encode i) = .ok i

/-- R84, R92: a word that decodes to a command is that command's word, so no bit of a word is dropped. -/
def Obligations.EncodeOfDecode : Prop := ∀ (c : Word) (i : Instr), decode c = .ok i → encode i = c

/-- R84: no two rows of the opcode map select the same word. -/
def Obligations.NoTwoRowsSelectOneWord : Prop :=
  ∀ (w : Word) (n m : Fin opcodeTable.length),
    opcodeTable[n].selects w = true → opcodeTable[m].selects w = true → n = m

/-- R83, R85, R92: a word decodes exactly when a row of the opcode map selects it, and then to that row's command. -/
def Obligations.RowOrIllegal : Prop :=
  ∀ c : Word,
    (∀ row ∈ opcodeTable, row.selects c = true → decode c = .ok (row.build c)) ∧
    ((∀ row ∈ opcodeTable, row.selects c = false) → ∃ e, decode c = .error e)

/-- R84: words written out bit by bit from the patterns of the opcode map, one of each family. -/
def Obligations.WordsOfEachFamilyDecode : Prop :=
  decode 0b00000000000000000000000000000000#32 = .ok .nop ∧
  decode 0b00001100101000010000010000000010#32 = .ok (.seti 4 3233) ∧
  decode 0b00000000000000010000001000010001#32 = .ok (.gcdstep 2 0 1) ∧
  decode 0b00000000001000000001001100010011#32 = .ok (.modinv 3 1 2) ∧
  decode 0b00000000000000100001001100100001#32 = .ok (.modexp 3 1 2 0) ∧
  decode 0b00000000000000100001001100110000#32 = .ok (.montmul 3 1 2 0)

/-- R89, R90: a command as assembly writes it assembles to itself, except EGCD with vd above v13, which is refused. A
pseudo-instruction assembles to its expansion. A line that is accepted is one that R89 writes or a pseudo-instruction,
so any other shape is refused, and so is any line with a register above v15 or an immediate above 65535. -/
def Obligations.AssemblyRoundTrip : Prop :=
  (∀ i : Instr,
    assemble (disassemble i).1 (disassemble i).2 =
      match i with
      | .egcd rd _ _ => if rd.val ≤ 13 then some i else none
      | _ => some i) ∧
  (∀ d a m n : AsmOperand,
    assemble .clr [d] = assemble .seti [d, .imm 0] ∧ assemble .li [d, n] = assemble .seti [d, n] ∧
    assemble .modsqr [d, a, m] = assemble .modmul [d, a, a, m] ∧
    assemble .montsqr [d, a, m] = assemble .montmul [d, a, a, m]) ∧
  (∀ name operands i, assemble name operands = some i →
    disassemble i = (name, operands) ∨ (name = .clr ∧ operands.length = 1) ∨ (name = .li ∧ operands.length = 2) ∨
    ((name = .modsqr ∨ name = .montsqr) ∧ operands.length = 3)) ∧
  (∀ name operands, (∃ n, (.v n ∈ operands ∧ 16 ≤ n) ∨ (.imm n ∈ operands ∧ 65536 ≤ n)) →
    assemble name operands = none)

/-! ## Steps and the command life cycle (10_state.md) -/

/-- R31, R92, R62: with command word c in flight and the engine next in the order, a step is the completion of the
command that c decodes to. -/
def Obligations.StepRunsDecodedCommand : Prop :=
  ∀ (s : State) (c : Word) (i : Instr) (rest : List Event),
    s.phase = .busy c → s.resetInput = false → decode c = .ok i →
    (s.pending = [] → step s = exec i s) ∧
    (s.pending = .engine :: rest → step s = exec i { s with pending := rest })

/-- R83, R85, R32: a word that is no command ends in error completion ILLEGAL. -/
def Obligations.IllegalWordEndsIllegal : Prop :=
  ∀ (s : State) (c : Word) (e : Illegal) (rest : List Event),
    s.phase = .busy c → s.resetInput = false → decode c = .error e →
    (s.pending = [] → ∃ t, step s = .next t ∧ Failed s t .illegal) ∧
    (s.pending = .engine :: rest → ∃ t, step s = .next t ∧ Failed { s with pending := rest } t .illegal)

/-- R30: a host write to CMD. While busy it is dropped and sets HZ; otherwise CMD takes the word, DONE, ERR and
ERRCODE become 0 and the phase Busy. Z, XS, YS and the register file do not change in either case. -/
def Obligations.CmdWriteAccepts : Prop :=
  ∀ (s : State) (c : Word) (rest : List Event),
    s.resetInput = false → s.pending = hostWrite s.params 0x0008 c :: rest →
    ∃ t, step s = .next t ∧
      (∀ r, t.x r = s.x r) ∧ t.status.z = s.status.z ∧ t.status.xs = s.status.xs ∧ t.status.ys = s.status.ys ∧
      t.params = s.params ∧ t.ie = s.ie ∧ t.resetInput = s.resetInput ∧ t.pending = rest ∧ t.draws = s.draws ∧
      t.replies = s.replies ++ [.written 0x0008] ∧
      (s.busy = true →
        t.status.hz = true ∧ t.cmd = s.cmd ∧ t.phase = s.phase ∧ t.status.done = s.status.done ∧
        t.status.err = s.status.err ∧ t.status.errCode = s.status.errCode) ∧
      (s.busy = false →
        t.cmd = c ∧ t.phase = .busy c ∧ t.status.done = false ∧ t.status.err = false ∧
        t.status.errCode = 0#4 ∧ t.status.hz = s.status.hz)

/-- R31, R32, R200, R205: every command ends in a successful or an error completion; an error completion writes no
register and no flag, and neither writes CMD, CTRL or HZ. -/
def Obligations.EveryCommandSucceedsOrFails : Prop :=
  ∀ (i : Instr) (s : State), ∃ t, exec i s = .next t ∧
    ((∃ z xs ys, Succeeded s t z xs ys) ∨ ∃ e, Failed s t e)

/-- R202, R203: a command reports exactly one code, the first that applies in the order of R203; a command that passes
every check completes successfully. -/
def Obligations.FirstErrorIsReported : Prop :=
  ∀ (i : Instr) (s : State), ∃ t, exec i s = .next t ∧
    (∀ e, firstError s i = some e → Failed s t e) ∧
    (firstError s i = none → ∃ z xs ys, Succeeded s t z xs ys)

/-- From every state that meets the invariant, a step gives a state that meets it (R20, R25, R30, R201, R230). -/
def Obligations.StepKeepsInv : Prop := ∀ s t : State, EngineInv s → step s = .next t → EngineInv t

/-- The reset state meets the invariant. -/
def Obligations.ResetMeetsInv : Prop := EngineInv State.reset

/-- "No behaviour of the engine is `stuck`. Every access and every accepted command has an outcome"
(93_implementation_defined.md Part B): a step never stops, and it never changes the parameters (00_scope.md R7, R11). -/
def Obligations.StepAlwaysAnswersNext : Prop := ∀ s : State, ∃ t, step s = .next t ∧ t.params = s.params

/-- No reset is asserted or among the pending events: the reset input is released, no event changes it (R230), and no
pending host access writes SRST = 1 (R231). -/
def NoResetAhead (s : State) : Prop :=
  s.resetInput = false ∧ (∀ level, .resetInput level ∉ s.pending) ∧
  ∀ a v, .bus a ∈ s.pending → a.op = .write v → v.getLsbD 1 = true → ¬ a.names s.params .ctrl

/-- R240, in the order of events of log 5: a busy engine stays busy with its command for less than k steps and is idle
after k, where k is at most one more than there are pending events. That k-th step is a completion, which sets DONE,
unless a reset is asserted or among the pending events. -/
def Obligations.AcceptedCommandCompletes : Prop :=
  ∀ (s : State) (c : Word), s.phase = .busy c →
    ∃ k, k ≤ s.pending.length + 1 ∧ ∃ t, Sys2Proof.core.run k s = .next t ∧ t.phase = .idle ∧
      (∀ j, j < k → ∃ u : State, Sys2Proof.core.run j s = .next u ∧ u.phase = .busy c) ∧
      (NoResetAhead s → t.status.done = true)

/-- R28, R65: while the engine stays busy no step changes the register file or the command in flight, so the operands
read at completion are those at acceptance. -/
def Obligations.BusyKeepsOperands : Prop :=
  ∀ (s t : State) (c d : Word),
    step s = .next t → s.phase = .busy c → t.phase = .busy d → d = c ∧ t.regs = s.regs

/-- R61, R65, D8: whatever host accesses arrive between acceptance and completion, a soft reset apart, the command's
registers, flags and error report are those it gives with none; a word that is no command is reported ILLEGAL. -/
def Obligations.ResultIgnoresBusyAccesses : Prop :=
  ∀ (s : State) (c : Word) (accesses : List Access),
    s.phase = .busy c → s.resetInput = false → s.pending = accesses.map Event.bus ++ [.engine] →
    (∀ a ∈ accesses, ∀ v, a.op = .write v → v.getLsbD 1 = true → ¬ a.names s.params .ctrl) →
    ∃ t u, Sys2Proof.core.run (accesses.length + 1) s = .next t ∧
      (∀ i, decode c = .ok i → exec i s = .next u) ∧ (∀ e, decode c = .error e → Failed s u .illegal) ∧
      (∀ r, t.x r = u.x r) ∧ t.status.z = u.status.z ∧ t.status.xs = u.status.xs ∧ t.status.ys = u.status.ys ∧
      t.status.err = u.status.err ∧ t.status.errCode = u.status.errCode ∧ t.status.done = u.status.done ∧
      t.cmd = u.cmd ∧ t.phase = u.phase

/-- s is about to be reset: the reset input is asserted, or the next event asserts or releases it (R230; log 4 where it
already has that level), or the next event is a host write of SRST = 1 (R231). -/
def ResetStep (s : State) : Prop :=
  s.resetInput = true ∨ (∃ level rest, s.pending = .resetInput level :: rest) ∨
  ∃ a rest v, s.pending = .bus a :: rest ∧ a.names s.params .ctrl ∧ a.op = .write v ∧ v.getLsbD 1 = true

/-- s is about to take an engine step: the next event is the engine's turn, or there is no other. -/
def EngineStep (s : State) : Prop := s.pending = [] ∨ ∃ rest, s.pending = .engine :: rest

/-- The registers that the rule of a command names as written (R100 to R102, R121 to R125, R150, R151, R172 to R175). -/
def namedRegs : Instr → List Reg
  | .nop => []
  | .mov rd _ => [rd]
  | .seti rd _ => [rd]
  | .gcd rd _ _ => [rd]
  | .gcdstep rd rs1 rs2 => [rs1, rs2, rd]
  | .egcd rd _ _ => [rd, rd + 1, rd + 2]
  | .modinv rd _ _ => [rd]
  | .modmul rd _ _ _ => [rd]
  | .modexp rd _ _ _ => [rd]
  | .montmul rd _ _ _ => [rd]
  | .tomont rd _ _ => [rd]
  | .frommont rd _ _ => [rd]
  | .montr2 rd _ => [rd]

/-- R240, R230, R231: a busy engine leaves Busy only by a completion, which sets DONE, or by a reset. -/
def Obligations.BusyEndsByCompletionOrReset : Prop :=
  ∀ (s t : State) (c : Word), step s = .next t → s.phase = .busy c → t.phase = .idle →
    (EngineStep s ∧ t.status.done = true) ∨ ResetStep s

/-- R21, R33: a register changes only by the successful completion of a command whose rule names it, by a host write
of one of its limbs while idle, or by a reset. Z, XS and YS change only by the successful completion of a command
other than NOP, or by a reset. -/
def Obligations.RegistersAndFlagsChangeOnlyAsNamed : Prop :=
  ∀ s t : State, step s = .next t → ¬ ResetStep s →
    (∀ r, t.x r ≠ s.x r →
      (∃ c i, s.phase = .busy c ∧ decode c = .ok i ∧ EngineStep s ∧ firstError s i = none ∧ r ∈ namedRegs i) ∨
      (s.phase = .idle ∧ ∃ a rest j v,
        s.pending = .bus a :: rest ∧ a.names s.params (.limb r j) ∧ a.op = .write v)) ∧
    ((t.status.z ≠ s.status.z ∨ t.status.xs ≠ s.status.xs ∨ t.status.ys ≠ s.status.ys) →
      ∃ c i, s.phase = .busy c ∧ decode c = .ok i ∧ EngineStep s ∧ firstError s i = none ∧ i ≠ .nop)

/-! ## Reset (10_state.md R35, 70_reset_and_hazards.md) -/

/-- R35: every piece of state after reset, and the constants ID and CONFIG (R27), as the spec gives them. -/
def Obligations.ResetValues : Prop :=
  (∀ r, State.reset.x r = 0) ∧ State.reset.cmd = 0x00000000#32 ∧ statusWord State.reset = 0x00000000#32 ∧
  ctrlWord State.reset = 0x00000000#32 ∧ State.reset.phase = .idle ∧ State.reset.irq = false ∧
  (readTarget .id State.reset).1 = 0x41434531#32 ∧
  ((readTarget .config State.reset).1.extractLsb' 0 16).toNat = State.reset.W ∧
  (readTarget .config State.reset).1.extractLsb' 16 16 = 0x0110#16

/-- R231, R35: a host write of SRST = 1, whatever its other bits, puts every piece of the engine's state at its reset
value. It is answered as a write with the reset input released (log 6); how it is answered while the reset input is
asserted is the choice of log 4 and not stated here. -/
def Obligations.SoftResetClearsEverything : Prop :=
  ∀ (s : State) (v : Word) (rest : List Event),
    v.getLsbD 1 = true → s.pending = hostWrite s.params 0x0010 v :: rest →
    ∃ t, step s = .next t ∧
      (∀ r, t.x r = 0) ∧ t.cmd = 0x00000000#32 ∧ statusWord t = 0x00000000#32 ∧ ctrlWord t = 0x00000000#32 ∧
      t.phase = .idle ∧ t.irq = false ∧
      t.params = s.params ∧ t.resetInput = s.resetInput ∧ t.pending = rest ∧ t.draws = s.draws ∧
      (s.resetInput = false → t.replies = s.replies ++ [.written 0x0010])

/-- R230: when the reset input is asserted or released, and at every step while it is asserted, every piece of the
engine's state takes its reset value. That an event which gives the input the level it already has resets as well is
the choice of log 4. -/
def Obligations.HardwareResetClearsEverything : Prop :=
  ∀ (s t : State), step s = .next t →
    ((∃ level rest, s.pending = .resetInput level :: rest) ∨ s.resetInput = true) →
    (∀ r, t.x r = 0) ∧ t.cmd = 0x00000000#32 ∧ statusWord t = 0x00000000#32 ∧ ctrlWord t = 0x00000000#32 ∧
    t.phase = .idle ∧ t.irq = false ∧ t.params = s.params

/-! ## Utility commands (40_utility.md) -/

/-- R100: NOP is the all-zero word only. It completes, writes no register and no flag, clears ERR and ERRCODE, sets
DONE, and asserts IRQ if IE = 1. Issued to an idle engine it goes through acceptance, which clears DONE, ERR and
ERRCODE, and then through completion, which sets DONE. -/
def Obligations.NopCompletes : Prop :=
  (∀ c, decode c = .ok .nop ↔ c = 0x00000000#32) ∧
  (∀ s : State, ∃ t, exec .nop s = .next t ∧ (∀ r, t.x r = s.x r) ∧
    Succeeded s t s.status.z s.status.xs s.status.ys ∧ t.irq = s.ie) ∧
  ∀ (s : State) (rest : List Event), s.phase = .idle → s.resetInput = false →
    s.pending = hostWrite s.params 0x0008 0x00000000#32 :: .engine :: rest →
    ∃ t u, step s = .next t ∧ step t = .next u ∧
      t.phase = .busy 0x00000000#32 ∧ t.status.done = false ∧ t.status.err = false ∧ t.status.errCode = 0#4 ∧
      u.phase = .idle ∧ u.status.done = true ∧ u.status.err = false ∧ u.status.errCode = 0#4 ∧
      u.status.z = s.status.z ∧ u.status.xs = s.status.xs ∧ u.status.ys = s.status.ys ∧
      u.status.hz = s.status.hz ∧ (∀ r, u.x r = s.x r) ∧ u.cmd = 0x00000000#32 ∧ u.ie = s.ie ∧ u.irq = s.ie

/-- R101: MOV, op 0x01, copies a register and sets Z by its value. -/
def Obligations.MovCopies : Prop :=
  ∀ (rd rs1 : Reg) (s : State), decode (encodeR 0x01#8 rd rs1 0 0) = .ok (.mov rd rs1) ∧
    ∃ t, exec (.mov rd rs1) s = .next t ∧
      t.x rd = s.x rs1 ∧ RegsKeptExcept s t [rd] ∧ Succeeded s t (s.x rs1 == 0) false false

/-- R102: SETI, op 0x02 of format I, writes the zero-extended immediate to all W bits and sets Z by it. -/
def Obligations.SetiWritesImmediate : Prop :=
  ∀ (rd : Reg) (imm16 : BitVec 16) (s : State), decode (encodeI 0x02#8 rd imm16) = .ok (.seti rd imm16) ∧
    ∃ t, exec (.seti rd imm16) s = .next t ∧
      t.x rd = imm16.toNat ∧ RegsKeptExcept s t [rd] ∧ Succeeded s t (imm16 == 0#16) false false

/-! ## The gcd_stepper (41_gcd_stepper.md) -/

/-- R121: GCD, op 0x10, writes gcd(A, B), and Z is 1 exactly when A = B = 0. -/
def Obligations.GcdWritesGcd : Prop :=
  ∀ (rd rs1 rs2 : Reg) (s : State), decode (encodeR 0x10#8 rd rs1 rs2 0) = .ok (.gcd rd rs1 rs2) ∧
    ∃ t, exec (.gcd rd rs1 rs2) s = .next t ∧
      t.x rd = Nat.gcd (s.x rs1) (s.x rs2) ∧ RegsKeptExcept s t [rd] ∧
      Succeeded s t (s.x rs1 == 0 && s.x rs2 == 0) false false

/-- R122: GCDSTEP, op 0x11, in its three cases: fields not pairwise distinct, B = 0, and one division step. -/
def Obligations.GcdstepReduces : Prop :=
  ∀ (rd rs1 rs2 : Reg) (s : State), decode (encodeR 0x11#8 rd rs1 rs2 0) = .ok (.gcdstep rd rs1 rs2) ∧
    ((rd = rs1 ∨ rd = rs2 ∨ rs1 = rs2) →
      ∃ t, exec (.gcdstep rd rs1 rs2) s = .next t ∧ Failed s t .operand) ∧
    (rd ≠ rs1 → rd ≠ rs2 → rs1 ≠ rs2 → s.x rs2 = 0 →
      ∃ t, exec (.gcdstep rd rs1 rs2) s = .next t ∧ (∀ r, t.x r = s.x r) ∧ Succeeded s t true false false) ∧
    (rd ≠ rs1 → rd ≠ rs2 → rs1 ≠ rs2 → s.x rs2 ≠ 0 →
      ∃ t, exec (.gcdstep rd rs1 rs2) s = .next t ∧
        t.x rs1 = s.x rs2 ∧ t.x rs2 = s.x rs1 % s.x rs2 ∧ t.x rd = s.x rs1 / s.x rs2 ∧
        RegsKeptExcept s t [rs1, rs2, rd] ∧ Succeeded s t (s.x rs1 % s.x rs2 == 0) false false)

/-- R126 law 5: repeated GCDSTEP reaches Z = 1, and at whatever step Z = 1 is found, the first such step above all,
x[rs1] is the gcd of the starting pair and x[rs2] is 0. -/
def Obligations.GcdstepLoopReachesGcd : Prop :=
  ∀ (rd rs1 rs2 : Reg) (s : State), rd ≠ rs1 → rd ≠ rs2 → rs1 ≠ rs2 →
    (∃ k t, 1 ≤ k ∧ repeatCommand (.gcdstep rd rs1 rs2) k s = .next t ∧ t.status.z = true) ∧
    ∀ k t, 1 ≤ k → repeatCommand (.gcdstep rd rs1 rs2) k s = .next t → t.status.z = true →
      t.x rs1 = Nat.gcd (s.x rs1) (s.x rs2) ∧ t.x rs2 = 0 ∧ RegsKeptExcept s t [rs1, rs2, rd]

/-- R123: EGCD, op 0x12, writes (g, tc_W(s), tc_W(t)) of EG(A, B) to the group rd, rd+1, rd+2, with the flags (g = 0,
s < 0, t < 0); with rd > 13 it ends with code OPERAND. -/
def Obligations.EgcdWritesGroup : Prop :=
  ∀ (rd rs1 rs2 : Reg) (s : State), decode (encodeR 0x12#8 rd rs1 rs2 0) = .ok (.egcd rd rs1 rs2) ∧
    (13 < rd.val → ∃ t, exec (.egcd rd rs1 rs2) s = .next t ∧ Failed s t .operand) ∧
    (rd.val ≤ 13 → ∃ t, exec (.egcd rd rs1 rs2) s = .next t ∧
      ∀ g u v, eg (s.x rs1) (s.x rs2) = (g, u, v) →
        t.x rd = g ∧ t.x (rd + 1) = (u % (2 ^ s.W : Nat)).toNat ∧ t.x (rd + 2) = (v % (2 ^ s.W : Nat)).toNat ∧
        RegsKeptExcept s t [rd, rd + 1, rd + 2] ∧
        Succeeded s t (g == 0) (decide (u < 0)) (decide (v < 0)))

/-- R124: EG is the classic recursion. -/
def Obligations.EgIsTheRecursion : Prop :=
  (∀ b : Nat, eg 0 b = (b, 0, 1)) ∧
  ∀ a b g : Nat, ∀ s1 t1 : Int, a ≠ 0 → eg (b % a) a = (g, s1, t1) →
    eg a b = (g, t1 - ((b / a : Nat) : Int) * s1, s1)

/-- R124: the coefficient bounds |s| <= max(1, b div (2g)) and |t| <= max(1, a div (2g)), for a, b > 0. -/
def Obligations.EgCoefficientBounds : Prop :=
  ∀ (a b g : Nat) (s t : Int), 0 < a → 0 < b → eg a b = (g, s, t) →
    s.natAbs ≤ max 1 (b / (2 * g)) ∧ t.natAbs ≤ max 1 (a / (2 * g))

/-- The iterative loop of R124 on its six variables, for at most `fuel` rounds. -/
def egIterative : Nat → Nat → Nat → Int → Int → Int → Int → Nat × Int × Int
  | 0, r0, _, s0, _, t0, _ => (r0, s0, t0)
  | fuel + 1, r0, r1, s0, s1, t0, t1 =>
    if r1 = 0 then (r0, s0, t0)
    else egIterative fuel r1 (r0 - r0 / r1 * r1) s1 (s0 - ((r0 / r1 : Nat) : Int) * s1) t1
      (t0 - ((r0 / r1 : Nat) : Int) * t1)

/-- R124: "This iterative loop gives the same triple", which the spec checked and did not prove. -/
def Obligations.EgIterativeLoopAgrees : Prop :=
  ∀ a b fuel : Nat, a ≤ fuel → egIterative fuel b a 0 1 1 0 = eg a b

/-- R126 law 1, R123: after EGCD the group, read as signed integers, satisfies Bézout's identity with the gcd. -/
def Obligations.EgcdRegistersSatisfyBezout : Prop :=
  ∀ (rd rs1 rs2 : Reg) (s : State), rd.val ≤ 13 → s.x rs1 < 2 ^ s.W → s.x rs2 < 2 ^ s.W →
    ∃ t, exec (.egcd rd rs1 rs2) s = .next t ∧ t.x rd = Nat.gcd (s.x rs1) (s.x rs2) ∧
      (s.x rs1 : Int) * signedValue s.W (t.x (rd + 1)) + s.x rs2 * signedValue s.W (t.x (rd + 2)) = t.x rd ∧
      (t.status.xs = true ↔ signedValue s.W (t.x (rd + 1)) < 0) ∧
      (t.status.ys = true ↔ signedValue s.W (t.x (rd + 2)) < 0)

/-- R125: MODINV, op 0x13, ends with MODZERO for N = 0, with NOINV for gcd(A, N) != 1, and otherwise writes the unique
d in [0, N) with (A * d) mod N = 1 mod N, which is EG's s mod N; Z is 1 only for N = 1. -/
def Obligations.ModinvWritesInverse : Prop :=
  ∀ (rd rs1 rs3 : Reg) (s : State), decode (encodeR 0x13#8 rd rs1 0 rs3) = .ok (.modinv rd rs1 rs3) ∧
    (s.x rs3 = 0 → ∃ t, exec (.modinv rd rs1 rs3) s = .next t ∧ Failed s t .modzero) ∧
    (s.x rs3 ≠ 0 → Nat.gcd (s.x rs1) (s.x rs3) ≠ 1 →
      ∃ t, exec (.modinv rd rs1 rs3) s = .next t ∧ Failed s t .noinv) ∧
    (s.x rs3 ≠ 0 → Nat.gcd (s.x rs1) (s.x rs3) = 1 →
      ∃ t, exec (.modinv rd rs1 rs3) s = .next t ∧ t.x rd < s.x rs3 ∧
        s.x rs1 * t.x rd % s.x rs3 = 1 % s.x rs3 ∧
        (∀ d, d < s.x rs3 → s.x rs1 * d % s.x rs3 = 1 % s.x rs3 → d = t.x rd) ∧
        (t.x rd : Int) = (eg (s.x rs1) (s.x rs3)).2.1 % (s.x rs3 : Int) ∧
        RegsKeptExcept s t [rd] ∧ Succeeded s t (s.x rs3 == 1) false false)

/-! ## The modular_exponentiation_engine (42_modexp.md) -/

/-- R150: MODMUL, op 0x20, ends with MODZERO for N = 0 and otherwise writes (A * B) mod N. -/
def Obligations.ModmulWritesProduct : Prop :=
  ∀ (rd rs1 rs2 rs3 : Reg) (s : State), decode (encodeR 0x20#8 rd rs1 rs2 rs3) = .ok (.modmul rd rs1 rs2 rs3) ∧
    (s.x rs3 = 0 → ∃ t, exec (.modmul rd rs1 rs2 rs3) s = .next t ∧ Failed s t .modzero) ∧
    (s.x rs3 ≠ 0 → ∃ t, exec (.modmul rd rs1 rs2 rs3) s = .next t ∧
      t.x rd = s.x rs1 * s.x rs2 % s.x rs3 ∧ RegsKeptExcept s t [rd] ∧
      Succeeded s t (s.x rs1 * s.x rs2 % s.x rs3 == 0) false false)

/-- R151: MODEXP, op 0x21, ends with MODZERO for N = 0 and otherwise writes (A ^ B) mod N. -/
def Obligations.ModexpWritesPower : Prop :=
  ∀ (rd rs1 rs2 rs3 : Reg) (s : State), decode (encodeR 0x21#8 rd rs1 rs2 rs3) = .ok (.modexp rd rs1 rs2 rs3) ∧
    (s.x rs3 = 0 → ∃ t, exec (.modexp rd rs1 rs2 rs3) s = .next t ∧ Failed s t .modzero) ∧
    (s.x rs3 ≠ 0 → ∃ t, exec (.modexp rd rs1 rs2 rs3) s = .next t ∧
      t.x rd = s.x rs1 ^ s.x rs2 % s.x rs3 ∧ RegsKeptExcept s t [rd] ∧
      Succeeded s t (s.x rs1 ^ s.x rs2 % s.x rs3 == 0) false false)

/-- R153 law 2: MODEXP(A, B1 + B2, N) = MODMUL(MODEXP(A, B1, N), MODEXP(A, B2, N), N), as three commands against one. -/
def Obligations.ModexpOfSum : Prop :=
  ∀ (s t1 t2 t3 u : State) (ra rb1 rb2 rb rn p q r o : Reg),
    s.x rn ≠ 0 → s.x rb = s.x rb1 + s.x rb2 →
    p ≠ ra → p ≠ rb2 → p ≠ rn → q ≠ rn → q ≠ p →
    exec (.modexp p ra rb1 rn) s = .next t1 → exec (.modexp q ra rb2 rn) t1 = .next t2 →
    exec (.modmul r p q rn) t2 = .next t3 → exec (.modexp o ra rb rn) s = .next u →
    t3.x r = u.x o

/-- R153 law 4: with n = 3233, e = 17 and d = 2753, MODEXP(MODEXP(m, e, n), d, n) = m for every m < n. -/
def Obligations.RsaRoundTrip : Prop :=
  ∀ (s : State) (rc rm re rd rn ro : Reg),
    s.x rn = 3233 → s.x re = 17 → s.x rd = 2753 → s.x rm < 3233 → rc ≠ rd → rc ≠ rn →
    ∃ t u, exec (.modexp rc rm re rn) s = .next t ∧ exec (.modexp ro rc rd rn) t = .next u ∧ u.x ro = s.x rm

/-! ## The montgomery_multiplier (43_montgomery.md) -/

/-- R170: for odd N >= 3 the inverse of the radix R = 2^W is the unique number in [1, N) with (R * R^-1) mod N = 1;
for N = 1 it is 0. -/
def Obligations.RadixInverseInverts : Prop :=
  (∀ W n : Nat, n % 2 = 1 → 3 ≤ n →
    1 ≤ radixInverse W n ∧ radixInverse W n < n ∧ 2 ^ W * radixInverse W n % n = 1 ∧
    ∀ d, 1 ≤ d → d < n → 2 ^ W * d % n = 1 → d = radixInverse W n) ∧
  ∀ W : Nat, radixInverse W 1 = 0

/-- R172 with the checks of R171 and R^-1 of R170: MONTMUL, op 0x30, ends with MODZERO, MODEVEN or RANGE, and otherwise
writes (A * B * R^-1) mod N. R^-1 is the one number below N with (R * R^-1) mod N = 1 mod N, which is 0 for N = 1. -/
def Obligations.MontmulWritesProduct : Prop :=
  ∀ (rd rs1 rs2 rs3 : Reg) (s : State), decode (encodeR 0x30#8 rd rs1 rs2 rs3) = .ok (.montmul rd rs1 rs2 rs3) ∧
    (s.x rs3 = 0 → ∃ t, exec (.montmul rd rs1 rs2 rs3) s = .next t ∧ Failed s t .modzero) ∧
    (s.x rs3 ≠ 0 → s.x rs3 % 2 = 0 → ∃ t, exec (.montmul rd rs1 rs2 rs3) s = .next t ∧ Failed s t .modeven) ∧
    (s.x rs3 % 2 = 1 → (s.x rs1 ≥ s.x rs3 ∨ s.x rs2 ≥ s.x rs3) →
      ∃ t, exec (.montmul rd rs1 rs2 rs3) s = .next t ∧ Failed s t .range) ∧
    (s.x rs3 % 2 = 1 → s.x rs1 < s.x rs3 → s.x rs2 < s.x rs3 →
      ∃ t, exec (.montmul rd rs1 rs2 rs3) s = .next t ∧
        (∀ rinv, rinv < s.x rs3 → 2 ^ s.W * rinv % s.x rs3 = 1 % s.x rs3 →
          t.x rd = s.x rs1 * s.x rs2 * rinv % s.x rs3) ∧
        RegsKeptExcept s t [rd] ∧ Succeeded s t (t.x rd == 0) false false)

/-- R173 with the checks of R171: TOMONT, op 0x31, ends with MODZERO, MODEVEN or RANGE, and otherwise writes
(A * R) mod N. -/
def Obligations.TomontWritesForm : Prop :=
  ∀ (rd rs1 rs3 : Reg) (s : State), decode (encodeR 0x31#8 rd rs1 0 rs3) = .ok (.tomont rd rs1 rs3) ∧
    (s.x rs3 = 0 → ∃ t, exec (.tomont rd rs1 rs3) s = .next t ∧ Failed s t .modzero) ∧
    (s.x rs3 ≠ 0 → s.x rs3 % 2 = 0 → ∃ t, exec (.tomont rd rs1 rs3) s = .next t ∧ Failed s t .modeven) ∧
    (s.x rs3 % 2 = 1 → s.x rs1 ≥ s.x rs3 → ∃ t, exec (.tomont rd rs1 rs3) s = .next t ∧ Failed s t .range) ∧
    (s.x rs3 % 2 = 1 → s.x rs1 < s.x rs3 →
      ∃ t, exec (.tomont rd rs1 rs3) s = .next t ∧
        t.x rd = s.x rs1 * 2 ^ s.W % s.x rs3 ∧ RegsKeptExcept s t [rd] ∧
        Succeeded s t (s.x rs1 * 2 ^ s.W % s.x rs3 == 0) false false)

/-- R174 with the checks of R171 and R^-1 of R170: FROMMONT, op 0x32, ends with MODZERO, MODEVEN or RANGE, and otherwise
writes (A * R^-1) mod N. -/
def Obligations.FrommontWritesResidue : Prop :=
  ∀ (rd rs1 rs3 : Reg) (s : State), decode (encodeR 0x32#8 rd rs1 0 rs3) = .ok (.frommont rd rs1 rs3) ∧
    (s.x rs3 = 0 → ∃ t, exec (.frommont rd rs1 rs3) s = .next t ∧ Failed s t .modzero) ∧
    (s.x rs3 ≠ 0 → s.x rs3 % 2 = 0 → ∃ t, exec (.frommont rd rs1 rs3) s = .next t ∧ Failed s t .modeven) ∧
    (s.x rs3 % 2 = 1 → s.x rs1 ≥ s.x rs3 → ∃ t, exec (.frommont rd rs1 rs3) s = .next t ∧ Failed s t .range) ∧
    (s.x rs3 % 2 = 1 → s.x rs1 < s.x rs3 →
      ∃ t, exec (.frommont rd rs1 rs3) s = .next t ∧
        (∀ rinv, rinv < s.x rs3 → 2 ^ s.W * rinv % s.x rs3 = 1 % s.x rs3 →
          t.x rd = s.x rs1 * rinv % s.x rs3) ∧
        RegsKeptExcept s t [rd] ∧ Succeeded s t (t.x rd == 0) false false)

/-- R175 with the checks of R171: MONTR2, op 0x33, ends with MODZERO or MODEVEN, and otherwise writes 2^(2W) mod N. -/
def Obligations.Montr2WritesConstant : Prop :=
  ∀ (rd rs3 : Reg) (s : State), decode (encodeR 0x33#8 rd 0 0 rs3) = .ok (.montr2 rd rs3) ∧
    (s.x rs3 = 0 → ∃ t, exec (.montr2 rd rs3) s = .next t ∧ Failed s t .modzero) ∧
    (s.x rs3 ≠ 0 → s.x rs3 % 2 = 0 → ∃ t, exec (.montr2 rd rs3) s = .next t ∧ Failed s t .modeven) ∧
    (s.x rs3 % 2 = 1 → ∃ t, exec (.montr2 rd rs3) s = .next t ∧
      t.x rd = 2 ^ (2 * s.W) % s.x rs3 ∧ RegsKeptExcept s t [rd] ∧
      Succeeded s t (2 ^ (2 * s.W) % s.x rs3 == 0) false false)

/-- R177 law 2: FROMMONT after TOMONT gives the residue back, and TOMONT after FROMMONT does. -/
def Obligations.MontgomeryFormRoundTrip : Prop :=
  ∀ (s : State) (rm ra rn ro : Reg), s.x rn % 2 = 1 → s.x ra < s.x rn → rm ≠ rn →
    (∃ t u, exec (.tomont rm ra rn) s = .next t ∧ exec (.frommont ro rm rn) t = .next u ∧ u.x ro = s.x ra) ∧
    (∃ t u, exec (.frommont rm ra rn) s = .next t ∧ exec (.tomont ro rm rn) t = .next u ∧ u.x ro = s.x ra)

/-- R177 law 4: FROMMONT(MONTMUL(TOMONT(a), TOMONT(b))) = MODMUL(a, b, N). -/
def Obligations.MontgomeryProductIsModmul : Prop :=
  ∀ (s : State) (ra rb rn p q m o k : Reg),
    s.x rn % 2 = 1 → s.x ra < s.x rn → s.x rb < s.x rn →
    p ≠ rn → p ≠ rb → q ≠ rn → q ≠ p → m ≠ rn →
    ∃ t1 t2 t3 t4 u, exec (.tomont p ra rn) s = .next t1 ∧ exec (.tomont q rb rn) t1 = .next t2 ∧
      exec (.montmul m p q rn) t2 = .next t3 ∧ exec (.frommont o m rn) t3 = .next t4 ∧
      exec (.modmul k ra rb rn) s = .next u ∧ t4.x o = u.x k

/-- R176: Montgomery reduction gives MONTMUL's value: with N' = (-N^-1) mod R, m = ((T mod R) * N') mod R and
t = (T + m*N) / R for T = A*B, the division is exact, t < 2N, and the result is t, less N if t >= N. -/
def Obligations.ReductionGivesMontmul : Prop :=
  ∀ (rd rs1 rs2 rs3 : Reg) (s : State) (n' m t0 : Nat),
    s.x rs3 % 2 = 1 → s.x rs3 < 2 ^ s.W → s.x rs1 < s.x rs3 → s.x rs2 < s.x rs3 →
    n' < 2 ^ s.W → (s.x rs3 * n' + 1) % 2 ^ s.W = 0 →
    m = (s.x rs1 * s.x rs2 % 2 ^ s.W) * n' % 2 ^ s.W →
    t0 = (s.x rs1 * s.x rs2 + m * s.x rs3) / 2 ^ s.W →
    (s.x rs1 * s.x rs2 + m * s.x rs3) % 2 ^ s.W = 0 ∧ t0 < 2 * s.x rs3 ∧
    ∃ t, exec (.montmul rd rs1 rs2 rs3) s = .next t ∧ t.x rd = if s.x rs3 ≤ t0 then t0 - s.x rs3 else t0

/-! ## The register window (20_memory.md, 10_state.md) -/

/-- The state after a step whose first event is a host access in the window that changes nothing of the engine. -/
def EngineUnchanged (s t : State) : Prop :=
  t.params = s.params ∧ (∀ r, t.x r = s.x r) ∧ t.cmd = s.cmd ∧ t.status = s.status ∧ t.ie = s.ie ∧
  t.phase = s.phase ∧ t.resetInput = s.resetInput ∧ t.draws = s.draws

/-- R27: ID and CONFIG read their constants, and writes to them are ignored and get no bus error. -/
def Obligations.IdAndConfigAreConstants : Prop :=
  ∀ (s : State) (rest : List Event), s.resetInput = false →
    (s.pending = hostRead s.params 0x0000 :: rest → ∃ t, step s = .next t ∧ EngineUnchanged s t ∧
      t.pending = rest ∧ t.replies = s.replies ++ [.data 0x0000 0x41434531#32]) ∧
    (s.pending = hostRead s.params 0x0004 :: rest → ∃ t w, step s = .next t ∧ EngineUnchanged s t ∧
      t.pending = rest ∧ t.replies = s.replies ++ [.data 0x0004 w] ∧
      (w.extractLsb' 0 16).toNat = s.W ∧ w.extractLsb' 16 8 = 16#8 ∧ w.extractLsb' 24 8 = 0x01#8) ∧
    (∀ v, s.pending = hostWrite s.params 0x0000 v :: rest → ∃ t, step s = .next t ∧ EngineUnchanged s t ∧
      t.pending = rest ∧ t.replies = s.replies ++ [.written 0x0000]) ∧
    (∀ v, s.pending = hostWrite s.params 0x0004 v :: rest → ∃ t, step s = .next t ∧ EngineUnchanged s t ∧
      t.pending = rest ∧ t.replies = s.replies ++ [.written 0x0004])

/-- R53: while the engine is idle, a read at off(i, j) gives limb j of x[i] with no side effect, and a write there sets
limb j to the word written and leaves every other limb of every register unchanged. -/
def Obligations.LimbAccessWhileIdle : Prop :=
  ∀ (s : State) (i : Reg) (j : Nat) (rest : List Event),
    s.phase = .idle → s.resetInput = false → j < s.W / 32 →
    (s.pending = hostRead s.params (0x1000 + 0x400 * i.val + 4 * j) :: rest →
      ∃ t, step s = .next t ∧ EngineUnchanged s t ∧ t.pending = rest ∧
        t.replies = s.replies ++
          [.data (0x1000 + 0x400 * i.val + 4 * j) (BitVec.ofNat 32 (s.x i / 2 ^ (32 * j)))]) ∧
    (∀ v, s.pending = hostWrite s.params (0x1000 + 0x400 * i.val + 4 * j) v :: rest →
      ∃ t, step s = .next t ∧ limbOf (t.x i) j = v ∧
        (∀ k, k ≠ j → limbOf (t.x i) k = limbOf (s.x i) k) ∧ RegsKeptExcept s t [i] ∧
        (s.x i < 2 ^ s.W → t.x i < 2 ^ s.W) ∧
        t.params = s.params ∧ t.cmd = s.cmd ∧ t.status = s.status ∧ t.ie = s.ie ∧ t.phase = s.phase ∧
        t.resetInput = s.resetInput ∧ t.draws = s.draws ∧ t.pending = rest ∧
        t.replies = s.replies ++ [.written (0x1000 + 0x400 * i.val + 4 * j)])

/-- R55: the value of vi is the sum of the limbs that an idle engine reads, limb 0 least significant. -/
def Obligations.RegisterIsSumOfLimbs : Prop :=
  ∀ (s : State) (i : Reg), s.phase = .idle → s.x i < 2 ^ s.W →
    s.x i = ((List.range (s.W / 32)).map (fun j => (readTarget (.limb i j) s).1.toNat * 2 ^ (32 * j))).sum

/-- R91, R53, R55: `LOAD vi, value` on an idle engine leaves the value in vi and every other register unchanged. -/
def Obligations.LoadSetsRegister : Prop :=
  ∀ (s : State) (i : Reg) (value : Nat) (rest : List Event),
    s.phase = .idle → s.resetInput = false → s.x i < 2 ^ s.W → value < 2 ^ s.W →
    s.pending = hostLoad s.params i value ++ rest →
    ∃ t, Sys2Proof.core.run (s.W / 32) s = .next t ∧ t.x i = value ∧ RegsKeptExcept s t [i] ∧
      t.status = s.status ∧ t.cmd = s.cmd ∧ t.ie = s.ie ∧ t.phase = .idle ∧ t.params = s.params ∧ t.pending = rest

/-- R51, R56, R57, R207: an access of another width, a misaligned access, an access to a reserved offset and an access
beyond the last limb get the bus error response; nothing of the engine changes, HZ included, and the engine goes on. -/
def Obligations.BusErrorsHaveNoEffect : Prop :=
  ∀ (s : State) (off bytes : Nat) (op : AccessOp) (rest : List Event),
    s.resetInput = false → off < 0x10000 →
    s.pending = .bus { addr := s.params.base + off, bytes := bytes, op := op } :: rest →
    (bytes ≠ 4 ∨ off % 4 ≠ 0 ∨ (0x0014 ≤ off ∧ off ≤ 0x0FFF) ∨ 0x5000 ≤ off ∨
      (∃ i j, i < 16 ∧ s.W / 32 ≤ j ∧ j < 256 ∧ off = 0x1000 + 0x400 * i + 4 * j)) →
    ∃ t, step s = .next t ∧ EngineUnchanged s t ∧ t.pending = rest ∧ t.replies = s.replies ++ [.busError off]

/-- R61: the three accesses that break the busy rule. A register-file read gives a draw, and a register-file write and
a CMD write are dropped; each sets HZ and changes nothing else of the engine. -/
def Obligations.BusyAccessesSetHazard : Prop :=
  ∀ (s : State) (c : Word) (i : Reg) (j : Nat) (rest : List Event),
    s.phase = .busy c → s.resetInput = false → j < s.W / 32 →
    (s.pending = hostRead s.params (0x1000 + 0x400 * i.val + 4 * j) :: rest →
      step s = .next { s with
        status := { s.status with hz := true }, draws := s.draws + 1, pending := rest,
        replies := s.replies ++ [.data (0x1000 + 0x400 * i.val + 4 * j) (Config.busyRead s.draws)] }) ∧
    (∀ v, s.pending = hostWrite s.params (0x1000 + 0x400 * i.val + 4 * j) v :: rest →
      step s = .next { s with
        status := { s.status with hz := true }, pending := rest,
        replies := s.replies ++ [.written (0x1000 + 0x400 * i.val + 4 * j)] }) ∧
    (∀ v, s.pending = hostWrite s.params 0x0008 v :: rest →
      step s = .next { s with
        status := { s.status with hz := true }, pending := rest, replies := s.replies ++ [.written 0x0008] })

/-- R58, R61: a read of CMD, STATUS or CTRL, busy or idle, gives its word and changes nothing of the engine. -/
def Obligations.ControlReadsHaveNoEffect : Prop :=
  ∀ (s : State) (off : Nat) (w : Word) (rest : List Event), s.resetInput = false →
    (off = 0x0008 ∧ w = s.cmd ∨ off = 0x000C ∧ w = statusWord s ∨ off = 0x0010 ∧ w = ctrlWord s) →
    s.pending = hostRead s.params off :: rest →
    ∃ t, step s = .next t ∧ EngineUnchanged s t ∧ t.pending = rest ∧ t.replies = s.replies ++ [.data off w]

/-- R25: the places of the fields in the STATUS word; the reserved bits read 0. R28: BUSY is 1 exactly while Busy. -/
def Obligations.StatusWordLayout : Prop :=
  ∀ s : State,
    ((statusWord s).getLsbD 0 = true ↔ ∃ c, s.phase = .busy c) ∧
    (statusWord s).getLsbD 1 = s.status.done ∧ (statusWord s).getLsbD 2 = s.status.err ∧
    (statusWord s).getLsbD 3 = s.status.hz ∧ (statusWord s).extractLsb' 4 4 = s.status.errCode ∧
    (statusWord s).getLsbD 8 = s.status.z ∧ (statusWord s).getLsbD 9 = s.status.xs ∧
    (statusWord s).getLsbD 10 = s.status.ys ∧ (statusWord s).extractLsb' 11 21 = 0#21

/-- R25: a write to STATUS, busy or idle, clears DONE and HZ where it holds a 1 and changes nothing else. -/
def Obligations.StatusWriteClearsDoneAndHazard : Prop :=
  ∀ (s : State) (v : Word) (rest : List Event), s.resetInput = false →
    s.pending = hostWrite s.params 0x000C v :: rest →
    ∃ t, step s = .next t ∧
      t.status.done = (if v.getLsbD 1 then false else s.status.done) ∧
      t.status.hz = (if v.getLsbD 3 then false else s.status.hz) ∧
      t.status.err = s.status.err ∧ t.status.errCode = s.status.errCode ∧ t.status.z = s.status.z ∧
      t.status.xs = s.status.xs ∧ t.status.ys = s.status.ys ∧
      t.params = s.params ∧ (∀ r, t.x r = s.x r) ∧ t.cmd = s.cmd ∧ t.ie = s.ie ∧ t.phase = s.phase ∧
      t.draws = s.draws ∧ t.pending = rest ∧ t.replies = s.replies ++ [.written 0x000C]

/-- R26: a write to CTRL with SRST = 0, busy or idle, sets IE to bit 0 and changes nothing else. With R29: setting IE
while DONE = 1 raises IRQ at once, and clearing it clears IRQ. -/
def Obligations.CtrlWriteSetsInterruptEnable : Prop :=
  ∀ (s : State) (v : Word) (rest : List Event), s.resetInput = false → v.getLsbD 1 = false →
    s.pending = hostWrite s.params 0x0010 v :: rest →
    ∃ t, step s = .next t ∧ t.ie = v.getLsbD 0 ∧ t.irq = (v.getLsbD 0 && s.status.done) ∧
      ctrlWord t = (if v.getLsbD 0 then 1#32 else 0#32) ∧
      t.params = s.params ∧ (∀ r, t.x r = s.x r) ∧ t.cmd = s.cmd ∧ t.status = s.status ∧ t.phase = s.phase ∧
      t.draws = s.draws ∧ t.pending = rest ∧ t.replies = s.replies ++ [.written 0x0010]

/-- The next event is a host write of v to target t. -/
def HostWrites (s : State) (t : Target) (v : Word) : Prop :=
  ∃ a rest, s.pending = .bus a :: rest ∧ a.names s.params t ∧ a.op = .write v

/-- R209, R210, R29, R11: the engine drives its interrupt line, and no other, exactly while IE and DONE are 1. IRQ rises
exactly by a completion while IE = 1 and by a CTRL write that sets IE while DONE = 1. It falls exactly by a reset and in
the three ways of R210: a STATUS write that clears DONE, the acceptance of a command, a CTRL write that clears IE. -/
def Obligations.IrqRisesAndFallsExactlyByItsCauses : Prop :=
  (∀ (s : State) (line : Nat),
    s.irqOn line = true ↔ line = s.params.irqLine ∧ s.ie = true ∧ s.status.done = true) ∧
  ∀ s t : State, step s = .next t →
    (s.irq = false → (t.irq = true ↔
      ¬ ResetStep s ∧
        (((∃ c, s.phase = .busy c) ∧ EngineStep s ∧ s.ie = true) ∨
          (s.status.done = true ∧ ∃ v, HostWrites s .ctrl v ∧ v.getLsbD 0 = true ∧ v.getLsbD 1 = false)))) ∧
    (s.irq = true → (t.irq = false ↔
      ResetStep s ∨ (∃ v, HostWrites s .status v ∧ v.getLsbD 1 = true) ∨
        (s.phase = .idle ∧ ∃ v, HostWrites s .cmd v) ∨ ∃ v, HostWrites s .ctrl v ∧ v.getLsbD 0 = false))

/-- R208, R91, R234: HZ rises only when a host access breaks the busy rule, so a host that keeps the discipline never
sees it; and every access that breaks the rule sets it. -/
def Obligations.HazardExactlyOnViolation : Prop :=
  ∀ s t : State, step s = .next t → s.resetInput = false → s.status.hz = false →
    (t.status.hz = true ↔
      ∃ c a rest, s.phase = .busy c ∧ s.pending = .bus a :: rest ∧ a.breaksBusyRule s.params)

/-- R50, R215: an access outside the window reaches nothing of this engine. -/
def Obligations.OutsideWindowHasNoEffect : Prop :=
  ∀ (s : State) (a : Access) (rest : List Event), s.resetInput = false →
    s.pending = .bus a :: rest → (a.addr < s.params.base ∨ s.params.base + 0x10000 ≤ a.addr) →
    step s = .next { s with pending := rest }

/-- R63, R91, R235, R30: `ISSUE` of a command by a host on an idle engine, then `WAIT` with n polls before the
completion: the polls show BUSY = 1, the last read shows BUSY = 0 and DONE = 1, and HZ is as before. -/
def Obligations.IssueThenWaitCompletes : Prop :=
  ∀ (s : State) (i : Instr) (n : Nat) (rest : List Event),
    s.phase = .idle → s.resetInput = false →
    s.pending = hostIssue s.params i :: (hostWait s.params n ++ rest) →
    ∃ t w, Sys2Proof.core.run (n + 3) s = .next t ∧
      t.replies = s.replies ++ (.written 0x0008 :: List.replicate n (.data 0x000C w)) ++
        [.data 0x000C (statusWord t)] ∧
      w.getLsbD 0 = true ∧ (statusWord t).getLsbD 0 = false ∧ (statusWord t).getLsbD 1 = true ∧
      t.cmd = encode i ∧ t.phase = .idle ∧ t.status.hz = s.status.hz ∧ t.pending = rest
end

