-- ==== Sys2Proof/Laws/Arith.lean ====
section
/-! SUPPORT. What the integer functions of Machine/Arith.lean compute: the extended Euclidean recursion, the modular
power, the modular inverse and the inverse of the Montgomery radix. -/

namespace Sys2Proof.Machine

/-! ### The recursion of 41_gcd_stepper.md R124 -/

/-- Any fuel that is at least `a` gives the same triple. -/
theorem egFuel_eq_of_le (fuel : Nat) : ∀ a b fuel', a ≤ fuel → a ≤ fuel' → egFuel fuel a b = egFuel fuel' a b := by
  induction fuel with
  | zero =>
    intro a b fuel' h _
    obtain rfl : a = 0 := by omega
    cases fuel' <;> simp [egFuel]
  | succ f ih =>
    intro a b fuel' h h'
    cases fuel' with
    | zero =>
      obtain rfl : a = 0 := by omega
      simp [egFuel]
    | succ f' =>
      by_cases ha : a = 0
      · simp [egFuel, ha]
      · have hlt : b % a < a := Nat.mod_lt _ (Nat.pos_of_ne_zero ha)
        simp only [egFuel, if_neg ha]
        rw [ih (b % a) a f' (by omega) (by omega)]

/-- The base case of R124. -/
@[simp] theorem eg_zero (b : Nat) : eg 0 b = (b, 0, 1) := rfl

/-- The recursive step of R124. -/
theorem eg_of_pos {a : Nat} (ha : 0 < a) (b : Nat) :
    eg a b = ((eg (b % a) a).1, (eg (b % a) a).2.2 - ((b / a : Nat) : Int) * (eg (b % a) a).2.1,
      (eg (b % a) a).2.1) := by
  have hlt : b % a < a := Nat.mod_lt _ ha
  obtain ⟨f, rfl⟩ : ∃ f, a = f + 1 := ⟨a - 1, by omega⟩
  have h := egFuel_eq_of_le f (b % (f + 1)) (f + 1) (b % (f + 1)) (by omega) le_rfl
  unfold eg
  rw [egFuel, if_neg (by omega), h]

/-- The first component of EG is the gcd. -/
theorem eg_fst (a b : Nat) : (eg a b).1 = Nat.gcd a b := by
  induction a, b using Nat.gcd.induction with
  | H0 b => simp
  | H1 a b ha ih => rw [eg_of_pos ha, Nat.gcd_rec]; exact ih

/-- Bézout's identity (R124, R126 law 1). -/
theorem eg_bezout (a b : Nat) : (a : Int) * (eg a b).2.1 + b * (eg a b).2.2 = Nat.gcd a b := by
  induction a, b using Nat.gcd.induction with
  | H0 b => simp
  | H1 a b ha ih =>
    rw [eg_of_pos ha, Nat.gcd_rec, ← ih]
    have hb : (b : Int) = a * ((b / a : Nat) : Int) + ((b % a : Nat) : Int) := by
      exact_mod_cast (Nat.div_add_mod b a).symm
    generalize (b / a : Nat) = q at *
    generalize (b % a : Nat) = r at *
    rw [hb]
    ring

/-- The base of the bounds: when the first operand divides the second, EG is (a, 1, 0). -/
theorem eg_of_dvd {a b : Nat} (ha : 0 < a) (h : a ∣ b) : eg a b = (a, 1, 0) := by
  rw [eg_of_pos ha, Nat.mod_eq_zero_of_dvd h]
  simp

/-- The bounds of R124 in a form without division: with g = gcd(a, b), |s| is 1 or at most b/(2g), and |t| is 1 (or 0)
or at most a/(2g). -/
theorem eg_bounds {a b : Nat} (ha : 0 < a) (hab : ¬ a ∣ b) :
    2 * Nat.gcd a b * (eg a b).2.1.natAbs ≤ b ∧ 2 * Nat.gcd a b * (eg a b).2.2.natAbs ≤ a := by
  induction a, b using Nat.gcd.induction with
  | H0 b => omega
  | H1 a b _ ih =>
    have hr : 0 < b % a := by
      rcases Nat.eq_zero_or_pos (b % a) with h | h
      · exact absurd (Nat.dvd_of_mod_eq_zero h) hab
      · exact h
    have hlt : b % a < a := Nat.mod_lt _ ha
    have hq : a * (b / a) + b % a = b := Nat.div_add_mod b a
    rw [eg_of_pos ha, Nat.gcd_rec a b]
    by_cases hd : b % a ∣ a
    · rw [eg_of_dvd hr hd, Nat.gcd_eq_left hd]
      obtain ⟨k, hk⟩ := hd
      have h2 : 2 ≤ k := by
        by_contra hlt2
        obtain rfl | rfl : k = 0 ∨ k = 1 := by omega
        · omega
        · omega
      generalize b % a = r at *
      generalize b / a = q at *
      subst hk
      simp only [zero_sub, mul_one, Int.natAbs_neg, Int.natAbs_natCast, Int.natAbs_one]
      constructor
      · have : r * 2 * q ≤ r * k * q := Nat.mul_le_mul_right _ (Nat.mul_le_mul_left _ h2)
        nlinarith
      · nlinarith
    · obtain ⟨h1, h2⟩ := ih hr hd
      refine ⟨?_, h1⟩
      generalize (eg (b % a) a).2.1 = s at *
      generalize (eg (b % a) a).2.2 = t at *
      generalize Nat.gcd (b % a) a = g at *
      have hle : (t - ((b / a : Nat) : Int) * s).natAbs ≤ t.natAbs + (b / a) * s.natAbs := by
        refine (Int.natAbs_sub_le _ _).trans ?_
        rw [Int.natAbs_mul, Int.natAbs_natCast]
      calc 2 * g * (t - ((b / a : Nat) : Int) * s).natAbs
          ≤ 2 * g * (t.natAbs + (b / a) * s.natAbs) := Nat.mul_le_mul_left _ hle
        _ = 2 * g * t.natAbs + (b / a) * (2 * g * s.natAbs) := by ring
        _ ≤ b % a + (b / a) * a := Nat.add_le_add h2 (Nat.mul_le_mul_left _ h1)
        _ = b := by rw [Nat.mul_comm]; omega

/-- The bounds of R124 as the rule writes them. -/
theorem eg_bounds_max {a b : Nat} (ha : 0 < a) :
    (eg a b).2.1.natAbs ≤ max 1 (b / (2 * Nat.gcd a b)) ∧
      (eg a b).2.2.natAbs ≤ max 1 (a / (2 * Nat.gcd a b)) := by
  by_cases hd : a ∣ b
  · rw [eg_of_dvd ha hd]
    simp
  · have hg : 0 < 2 * Nat.gcd a b := by
      have := Nat.gcd_pos_of_pos_left b ha
      omega
    obtain ⟨h1, h2⟩ := eg_bounds ha hd
    refine ⟨le_max_of_le_right ?_, le_max_of_le_right ?_⟩
    · rw [Nat.le_div_iff_mul_le hg, Nat.mul_comm]; exact h1
    · rw [Nat.le_div_iff_mul_le hg, Nat.mul_comm]; exact h2

/-- Both coefficients fit in W-bit two's complement (41_gcd_stepper.md R123). -/
theorem eg_fits {W a b : Nat} (hW : 2 ≤ W) (ha : a < 2 ^ W) (hb : b < 2 ^ W) :
    (eg a b).2.1.natAbs < 2 ^ (W - 1) ∧ (eg a b).2.2.natAbs < 2 ^ (W - 1) := by
  obtain ⟨w, rfl⟩ : ∃ w, W = w + 2 := ⟨W - 2, by omega⟩
  have hone : 1 < 2 ^ (w + 1) := Nat.one_lt_two_pow (by omega)
  have hpow : 2 ^ (w + 2) = 2 * 2 ^ (w + 1) := by ring
  simp only [Nat.add_succ_sub_one]
  rcases Nat.eq_zero_or_pos a with rfl | ha0
  · simp
  · by_cases hd : a ∣ b
    · rw [eg_of_dvd ha0 hd]; simp
    · have hg : 1 ≤ Nat.gcd a b := Nat.gcd_pos_of_pos_left b ha0
      obtain ⟨h1, h2⟩ := eg_bounds ha0 hd
      constructor
      · have : 2 * (eg a b).2.1.natAbs ≤ 2 * Nat.gcd a b * (eg a b).2.1.natAbs :=
          Nat.mul_le_mul_right _ (by omega)
        omega
      · have : 2 * (eg a b).2.2.natAbs ≤ 2 * Nat.gcd a b * (eg a b).2.2.natAbs :=
          Nat.mul_le_mul_right _ (by omega)
        omega

/-- The coefficients of EG are never both negative, and neither is when the gcd is 0. -/
theorem eg_signs (a b : Nat) :
    ((eg a b).2.1 < 0 → ¬ (eg a b).2.2 < 0) ∧
      ((eg a b).1 = 0 → ¬ (eg a b).2.1 < 0 ∧ ¬ (eg a b).2.2 < 0) := by
  constructor
  · intro hs ht
    have hbz := eg_bezout a b
    rcases Nat.eq_zero_or_pos a with rfl | ha
    · simp at hs
    · have hga : 0 ≤ (Nat.gcd a b : Int) := by positivity
      have h1 : (a : Int) * (eg a b).2.1 < 0 := by
        have : (0 : Int) < a := by exact_mod_cast ha
        nlinarith
      have h2 : (b : Int) * (eg a b).2.2 ≤ 0 := by
        have : (0 : Int) ≤ b := by positivity
        nlinarith
      omega
  · intro hg
    rw [eg_fst, Nat.gcd_eq_zero_iff] at hg
    obtain ⟨rfl, rfl⟩ := hg
    simp

/-! ### Two's complement -/

theorem tc_lt (W : Nat) (v : Int) : tc W v < 2 ^ W := by
  have hpos : (0 : Int) < ((2 ^ W : Nat) : Int) := by positivity
  have h1 := Int.emod_nonneg v hpos.ne'
  have h2 := Int.emod_lt_of_pos v hpos
  unfold tc
  omega

theorem tc_of_nonneg {W : Nat} {v : Int} (h0 : 0 ≤ v) (h : v < (2 ^ W : Nat)) : tc W v = v.toNat := by
  unfold tc
  rw [Int.emod_eq_of_lt h0 h]

theorem tc_of_neg {W : Nat} {v : Int} (h0 : v < 0) (h : -((2 ^ W : Nat) : Int) ≤ v) :
    (tc W v : Int) = v + (2 ^ W : Nat) := by
  unfold tc
  have : v % ((2 ^ W : Nat) : Int) = v + (2 ^ W : Nat) := by
    rw [← Int.add_emod_right, Int.emod_eq_of_lt (by omega) (by omega)]
  rw [this]
  omega

/-! ### The modular power of 42_modexp.md R151 -/

/-- The loop invariant of R152: what is left to multiply in is b^e. -/
theorem modPowLoop_mod (n fuel : Nat) : ∀ result b e, e ≤ fuel →
    modPowLoop n fuel result b e % n = result * b ^ e % n := by
  induction fuel with
  | zero =>
    intro result b e h
    obtain rfl : e = 0 := by omega
    simp [modPowLoop]
  | succ f ih =>
    intro result b e h
    by_cases he : e = 0
    · simp [modPowLoop, he]
    · rw [modPowLoop, if_neg he, ih _ _ _ (by omega)]
      have hsq : (b * b % n) ^ (e / 2) ≡ b ^ (2 * (e / 2)) [MOD n] := by
        rw [pow_mul, pow_two]
        exact (Nat.mod_modEq _ _).pow _
      rcases Nat.mod_two_eq_zero_or_one e with h2 | h2
      · rw [if_neg (by omega)]
        have he2 : 2 * (e / 2) = e := by omega
        rw [he2] at hsq
        exact hsq.mul_left result
      · rw [if_pos h2]
        have he2 : b ^ e = b * b ^ (2 * (e / 2)) := by
          rw [← pow_succ']
          congr 1
          omega
        rw [he2, ← mul_assoc]
        exact (Nat.mod_modEq _ _).mul hsq

/-- The loop's result is reduced when it starts reduced. -/
theorem modPowLoop_lt {n : Nat} (hn : 0 < n) (fuel : Nat) : ∀ result b e, result < n →
    modPowLoop n fuel result b e < n := by
  induction fuel with
  | zero => intro result b e h; simpa [modPowLoop] using h
  | succ f ih =>
    intro result b e h
    rw [modPowLoop]
    split
    · exact h
    · apply ih
      split
      · exact Nat.mod_lt _ hn
      · exact h

/-- `modPow` is the value of R151: the exact power, reduced. -/
theorem modPow_eq {n : Nat} (hn : 0 < n) (a e : Nat) : modPow a e n = a ^ e % n := by
  have h := modPowLoop_mod n e (1 % n) (a % n) e le_rfl
  rw [Nat.mod_eq_of_lt (modPowLoop_lt hn e _ _ _ (Nat.mod_lt _ hn))] at h
  unfold modPow
  rw [h]
  have : 1 % n * (a % n) ^ e ≡ 1 * a ^ e [MOD n] := (Nat.mod_modEq _ _).mul ((Nat.mod_modEq _ _).pow _)
  simpa [Nat.ModEq] using this

/-! ### The modular inverse of 41_gcd_stepper.md R125 -/

theorem modInverse_lt {n : Nat} (hn : 0 < n) (a : Nat) : modInverse a n < n := by
  have hpos : (0 : Int) < n := by exact_mod_cast hn
  have h1 := Int.emod_nonneg (eg a n).2.1 hpos.ne'
  have h2 := Int.emod_lt_of_pos (eg a n).2.1 hpos
  unfold modInverse
  omega

/-- "A * d mod N = 1 mod N" (R125). -/
theorem mul_modInverse {a n : Nat} (hn : 0 < n) (h : Nat.gcd a n = 1) : a * modInverse a n % n = 1 % n := by
  have hpos : (0 : Int) < n := by exact_mod_cast hn
  have hcast : (modInverse a n : Int) = (eg a n).2.1 % (n : Int) := by
    unfold modInverse
    exact Int.toNat_of_nonneg (Int.emod_nonneg _ hpos.ne')
  have hb := eg_bezout a n
  rw [h] at hb
  have : ((a * modInverse a n % n : Nat) : Int) = ((1 % n : Nat) : Int) := by
    push_cast
    rw [hcast, Int.mul_emod, Int.emod_emod_of_dvd _ (dvd_refl _), ← Int.mul_emod]
    have : (a : Int) * (eg a n).2.1 = 1 + n * (-(eg a n).2.2) := by push_cast at hb; linarith
    rw [this, Int.add_mul_emod_self_left]
  exact_mod_cast this

/-- The inverse in [0, n) is unique. -/
theorem modInverse_unique {a n d : Nat} (hn : 0 < n) (h : Nat.gcd a n = 1) (hd : d < n)
    (hmul : a * d % n = 1 % n) : d = modInverse a n := by
  have h1 : a * d ≡ a * modInverse a n [MOD n] := by
    unfold Nat.ModEq
    rw [hmul, mul_modInverse hn h]
  have h2 : d ≡ modInverse a n [MOD n] := Nat.ModEq.cancel_left_of_coprime (by rw [Nat.gcd_comm]; exact h) h1
  have h3 := modInverse_lt hn a
  exact Nat.ModEq.eq_of_lt_of_lt h2 hd h3

/-! ### The inverse of the radix (43_montgomery.md R170) -/

theorem radix_coprime (W : Nat) {n : Nat} (hodd : n % 2 = 1) : Nat.gcd (2 ^ W) n = 1 := by
  apply Nat.Coprime.pow_left
  exact Nat.coprime_two_left.mpr (Nat.odd_iff.mpr hodd)

/-- R * R^-1 mod N = 1 mod N (R170). -/
theorem radix_mul_inverse (W : Nat) {n : Nat} (hodd : n % 2 = 1) : 2 ^ W * radixInverse W n % n = 1 % n :=
  mul_modInverse (by omega) (radix_coprime W hodd)

theorem radixInverse_lt (W : Nat) {n : Nat} (hodd : n % 2 = 1) : radixInverse W n < n :=
  modInverse_lt (by omega) _

/-- A value reduced from v * R^-1, multiplied by R, is v mod n. -/
theorem radixInverse_cancel (W v : Nat) {n : Nat} (hodd : n % 2 = 1) :
    v * radixInverse W n % n * 2 ^ W % n = v % n := by
  have h : 2 ^ W * radixInverse W n ≡ 1 [MOD n] := radix_mul_inverse W hodd
  have : v * radixInverse W n % n * 2 ^ W ≡ v * radixInverse W n * 2 ^ W [MOD n] :=
    (Nat.mod_modEq _ _).mul_right _
  refine this.trans ?_
  have h2 : v * (2 ^ W * radixInverse W n) ≡ v * 1 [MOD n] := h.mul_left v
  rw [mul_one] at h2
  calc v * radixInverse W n * 2 ^ W = v * (2 ^ W * radixInverse W n) := by ring
    _ ≡ v [MOD n] := h2

/-- The radix may be cancelled modulo an odd n. -/
theorem radix_cancel (W : Nat) {n a b : Nat} (hodd : n % 2 = 1) (h : a * 2 ^ W ≡ b * 2 ^ W [MOD n]) :
    a ≡ b [MOD n] :=
  Nat.ModEq.cancel_right_of_coprime (by rw [Nat.gcd_comm]; exact radix_coprime W hodd) h

end Sys2Proof.Machine
end

