-- ==== Sys2Proof/Laws/Assembly.lean ====
section
/-! SUPPORT. What the operand readers of the assembler accept: exactly what the disassembler writes. -/

namespace Sys2Proof.Machine

@[simp] theorem asmReg_asmOfReg (r : Reg) : asmReg (asmOfReg r) = some r := by simp [asmReg, asmOfReg]

@[simp] theorem asmImm_toNat (v : BitVec 16) : asmImm (.imm v.toNat) = some v := by
  have := v.isLt
  simp [asmImm]
  omega

theorem asmReg_eq_some {o : AsmOperand} {r : Reg} (h : asmReg o = some r) : o = asmOfReg r := by
  cases o with
  | v n =>
    by_cases hn : n < 16
    · simp only [asmReg, hn, dite_true, Option.some.injEq] at h
      rw [← h, asmOfReg]
    · simp [asmReg, hn] at h
  | imm n => cases h

theorem asmImm_eq_some {o : AsmOperand} {v : BitVec 16} (h : asmImm o = some v) : o = .imm v.toNat := by
  cases o with
  | v n => cases h
  | imm n =>
    by_cases hn : n < 65536
    · simp only [asmImm, hn, if_true, Option.some.injEq] at h
      rw [← h, BitVec.toNat_ofNat, Nat.mod_eq_of_lt hn]
    · simp [asmImm, hn] at h

end Sys2Proof.Machine
end

