-- ==== Sys2Proof/Laws/State.lean ====
section
/-! SUPPORT. One lemma per field and per update of the state, so that no later proof unfolds a record update. -/

namespace Sys2Proof.Machine


/-! ### setX -/

@[simp] theorem setX_params (s : State) (i : Reg) (v : Nat) : (s.setX i v).params = s.params := rfl
@[simp] theorem setX_cmd (s : State) (i : Reg) (v : Nat) : (s.setX i v).cmd = s.cmd := rfl
@[simp] theorem setX_status (s : State) (i : Reg) (v : Nat) : (s.setX i v).status = s.status := rfl
@[simp] theorem setX_ie (s : State) (i : Reg) (v : Nat) : (s.setX i v).ie = s.ie := rfl
@[simp] theorem setX_phase (s : State) (i : Reg) (v : Nat) : (s.setX i v).phase = s.phase := rfl
@[simp] theorem setX_resetInput (s : State) (i : Reg) (v : Nat) : (s.setX i v).resetInput = s.resetInput := rfl
@[simp] theorem setX_pending (s : State) (i : Reg) (v : Nat) : (s.setX i v).pending = s.pending := rfl
@[simp] theorem setX_replies (s : State) (i : Reg) (v : Nat) : (s.setX i v).replies = s.replies := rfl
@[simp] theorem setX_draws (s : State) (i : Reg) (v : Nat) : (s.setX i v).draws = s.draws := rfl
@[simp] theorem setX_regs (s : State) (i : Reg) (v : Nat) : (s.setX i v).regs = s.regs.set i.val v i.isLt := rfl

theorem x_setX (s : State) (i j : Reg) (v : Nat) : (s.setX i v).x j = if i = j then v else s.x j := by
  unfold State.x State.setX
  rw [Vector.getElem_set]
  simp [Fin.ext_iff]

@[simp] theorem x_setX_self (s : State) (i : Reg) (v : Nat) : (s.setX i v).x i = v := by simp [x_setX]

theorem x_setX_ne (s : State) {i j : Reg} (v : Nat) (h : i ≠ j) : (s.setX i v).x j = s.x j := by
  simp [x_setX, h]


/-! ### writeAll -/

@[simp] theorem writeAll_params (s : State) (l : List (Reg × Nat)) : (s.writeAll l).params = s.params := by
  induction l generalizing s with
  | nil => rfl
  | cons w l ih => simp [State.writeAll, ih]

@[simp] theorem writeAll_cmd (s : State) (l : List (Reg × Nat)) : (s.writeAll l).cmd = s.cmd := by
  induction l generalizing s with
  | nil => rfl
  | cons w l ih => simp [State.writeAll, ih]

@[simp] theorem writeAll_status (s : State) (l : List (Reg × Nat)) : (s.writeAll l).status = s.status := by
  induction l generalizing s with
  | nil => rfl
  | cons w l ih => simp [State.writeAll, ih]

@[simp] theorem writeAll_ie (s : State) (l : List (Reg × Nat)) : (s.writeAll l).ie = s.ie := by
  induction l generalizing s with
  | nil => rfl
  | cons w l ih => simp [State.writeAll, ih]

@[simp] theorem writeAll_phase (s : State) (l : List (Reg × Nat)) : (s.writeAll l).phase = s.phase := by
  induction l generalizing s with
  | nil => rfl
  | cons w l ih => simp [State.writeAll, ih]

@[simp] theorem writeAll_resetInput (s : State) (l : List (Reg × Nat)) : (s.writeAll l).resetInput = s.resetInput := by
  induction l generalizing s with
  | nil => rfl
  | cons w l ih => simp [State.writeAll, ih]

@[simp] theorem writeAll_pending (s : State) (l : List (Reg × Nat)) : (s.writeAll l).pending = s.pending := by
  induction l generalizing s with
  | nil => rfl
  | cons w l ih => simp [State.writeAll, ih]

@[simp] theorem writeAll_replies (s : State) (l : List (Reg × Nat)) : (s.writeAll l).replies = s.replies := by
  induction l generalizing s with
  | nil => rfl
  | cons w l ih => simp [State.writeAll, ih]

@[simp] theorem writeAll_draws (s : State) (l : List (Reg × Nat)) : (s.writeAll l).draws = s.draws := by
  induction l generalizing s with
  | nil => rfl
  | cons w l ih => simp [State.writeAll, ih]

/-- A register that the writes do not name keeps its value. -/
theorem x_writeAll_of_notMem (s : State) (l : List (Reg × Nat)) (i : Reg) (h : i ∉ l.map Prod.fst) :
    (s.writeAll l).x i = s.x i := by
  induction l generalizing s with
  | nil => rfl
  | cons w l ih =>
    simp only [List.map_cons, List.mem_cons, not_or] at h
    rw [State.writeAll, ih _ h.2, x_setX_ne _ _ (Ne.symm h.1)]


/-! ### writeFlags -/

@[simp] theorem writeFlags_params (s : State) (f : Option Flags) : (s.writeFlags f).params = s.params := by cases f <;> rfl
@[simp] theorem writeFlags_regs (s : State) (f : Option Flags) : (s.writeFlags f).regs = s.regs := by cases f <;> rfl
@[simp] theorem writeFlags_cmd (s : State) (f : Option Flags) : (s.writeFlags f).cmd = s.cmd := by cases f <;> rfl
@[simp] theorem writeFlags_ie (s : State) (f : Option Flags) : (s.writeFlags f).ie = s.ie := by cases f <;> rfl
@[simp] theorem writeFlags_phase (s : State) (f : Option Flags) : (s.writeFlags f).phase = s.phase := by cases f <;> rfl
@[simp] theorem writeFlags_resetInput (s : State) (f : Option Flags) : (s.writeFlags f).resetInput = s.resetInput := by cases f <;> rfl
@[simp] theorem writeFlags_pending (s : State) (f : Option Flags) : (s.writeFlags f).pending = s.pending := by cases f <;> rfl
@[simp] theorem writeFlags_replies (s : State) (f : Option Flags) : (s.writeFlags f).replies = s.replies := by cases f <;> rfl
@[simp] theorem writeFlags_draws (s : State) (f : Option Flags) : (s.writeFlags f).draws = s.draws := by cases f <;> rfl
@[simp] theorem writeFlags_x (s : State) (f : Option Flags) (i : Reg) : (s.writeFlags f).x i = s.x i := by
  cases f <;> rfl
@[simp] theorem writeFlags_status_done (s : State) (f : Option Flags) :
    (s.writeFlags f).status.done = s.status.done := by cases f <;> rfl
@[simp] theorem writeFlags_status_err (s : State) (f : Option Flags) :
    (s.writeFlags f).status.err = s.status.err := by cases f <;> rfl
@[simp] theorem writeFlags_status_hz (s : State) (f : Option Flags) :
    (s.writeFlags f).status.hz = s.status.hz := by cases f <;> rfl
@[simp] theorem writeFlags_status_errCode (s : State) (f : Option Flags) :
    (s.writeFlags f).status.errCode = s.status.errCode := by cases f <;> rfl

/-! ### completeOk -/

@[simp] theorem completeOk_params (s : State) (l : List (Reg × Nat)) (f : Option Flags) : (s.completeOk l f).params = s.params := by
  simp [State.completeOk]
@[simp] theorem completeOk_cmd (s : State) (l : List (Reg × Nat)) (f : Option Flags) : (s.completeOk l f).cmd = s.cmd := by
  simp [State.completeOk]
@[simp] theorem completeOk_ie (s : State) (l : List (Reg × Nat)) (f : Option Flags) : (s.completeOk l f).ie = s.ie := by
  simp [State.completeOk]
@[simp] theorem completeOk_resetInput (s : State) (l : List (Reg × Nat)) (f : Option Flags) : (s.completeOk l f).resetInput = s.resetInput := by
  simp [State.completeOk]
@[simp] theorem completeOk_pending (s : State) (l : List (Reg × Nat)) (f : Option Flags) : (s.completeOk l f).pending = s.pending := by
  simp [State.completeOk]
@[simp] theorem completeOk_replies (s : State) (l : List (Reg × Nat)) (f : Option Flags) : (s.completeOk l f).replies = s.replies := by
  simp [State.completeOk]
@[simp] theorem completeOk_draws (s : State) (l : List (Reg × Nat)) (f : Option Flags) : (s.completeOk l f).draws = s.draws := by
  simp [State.completeOk]
@[simp] theorem completeOk_phase (s : State) (l : List (Reg × Nat)) (f : Option Flags) : (s.completeOk l f).phase = .idle := rfl
@[simp] theorem completeOk_x (s : State) (l : List (Reg × Nat)) (f : Option Flags) (i : Reg) : (s.completeOk l f).x i = (s.writeAll l).x i := by
  simp [State.completeOk, State.x]
@[simp] theorem completeOk_done (s : State) (l : List (Reg × Nat)) (f : Option Flags) : (s.completeOk l f).status.done = true := rfl
@[simp] theorem completeOk_err (s : State) (l : List (Reg × Nat)) (f : Option Flags) : (s.completeOk l f).status.err = false := rfl
@[simp] theorem completeOk_errCode (s : State) (l : List (Reg × Nat)) (f : Option Flags) : (s.completeOk l f).status.errCode = 0#4 := rfl
@[simp] theorem completeOk_hz (s : State) (l : List (Reg × Nat)) (f : Option Flags) : (s.completeOk l f).status.hz = s.status.hz := by
  simp [State.completeOk]
@[simp] theorem completeOk_z (s : State) (l : List (Reg × Nat)) (f : Flags) :
    (s.completeOk l (some f)).status.z = f.z := rfl
@[simp] theorem completeOk_z_none (s : State) (l : List (Reg × Nat)) :
    (s.completeOk l none).status.z = s.status.z := by simp [State.completeOk, State.writeFlags]
@[simp] theorem completeOk_xs (s : State) (l : List (Reg × Nat)) (f : Flags) :
    (s.completeOk l (some f)).status.xs = f.xs := rfl
@[simp] theorem completeOk_xs_none (s : State) (l : List (Reg × Nat)) :
    (s.completeOk l none).status.xs = s.status.xs := by simp [State.completeOk, State.writeFlags]
@[simp] theorem completeOk_ys (s : State) (l : List (Reg × Nat)) (f : Flags) :
    (s.completeOk l (some f)).status.ys = f.ys := rfl
@[simp] theorem completeOk_ys_none (s : State) (l : List (Reg × Nat)) :
    (s.completeOk l none).status.ys = s.status.ys := by simp [State.completeOk, State.writeFlags]

/-! ### completeError -/

@[simp] theorem completeError_params (s : State) (e : ErrCode) : (s.completeError e).params = s.params := rfl
@[simp] theorem completeError_regs (s : State) (e : ErrCode) : (s.completeError e).regs = s.regs := rfl
@[simp] theorem completeError_cmd (s : State) (e : ErrCode) : (s.completeError e).cmd = s.cmd := rfl
@[simp] theorem completeError_ie (s : State) (e : ErrCode) : (s.completeError e).ie = s.ie := rfl
@[simp] theorem completeError_resetInput (s : State) (e : ErrCode) : (s.completeError e).resetInput = s.resetInput := rfl
@[simp] theorem completeError_pending (s : State) (e : ErrCode) : (s.completeError e).pending = s.pending := rfl
@[simp] theorem completeError_replies (s : State) (e : ErrCode) : (s.completeError e).replies = s.replies := rfl
@[simp] theorem completeError_draws (s : State) (e : ErrCode) : (s.completeError e).draws = s.draws := rfl
@[simp] theorem completeError_phase (s : State) (e : ErrCode) : (s.completeError e).phase = .idle := rfl
@[simp] theorem completeError_done (s : State) (e : ErrCode) : (s.completeError e).status.done = true := rfl
@[simp] theorem completeError_err (s : State) (e : ErrCode) : (s.completeError e).status.err = true := rfl
@[simp] theorem completeError_errCode (s : State) (e : ErrCode) : (s.completeError e).status.errCode = e.code := rfl
@[simp] theorem completeError_hz (s : State) (e : ErrCode) : (s.completeError e).status.hz = s.status.hz := rfl
@[simp] theorem completeError_z (s : State) (e : ErrCode) : (s.completeError e).status.z = s.status.z := rfl
@[simp] theorem completeError_xs (s : State) (e : ErrCode) : (s.completeError e).status.xs = s.status.xs := rfl
@[simp] theorem completeError_ys (s : State) (e : ErrCode) : (s.completeError e).status.ys = s.status.ys := rfl
@[simp] theorem completeError_x (s : State) (e : ErrCode) (i : Reg) : (s.completeError e).x i = s.x i := rfl

/-! ### load -/

@[simp] theorem load_params (s : State) (c : Word) : (s.load c).params = s.params := rfl
@[simp] theorem load_regs (s : State) (c : Word) : (s.load c).regs = s.regs := rfl
@[simp] theorem load_ie (s : State) (c : Word) : (s.load c).ie = s.ie := rfl
@[simp] theorem load_resetInput (s : State) (c : Word) : (s.load c).resetInput = s.resetInput := rfl
@[simp] theorem load_pending (s : State) (c : Word) : (s.load c).pending = s.pending := rfl
@[simp] theorem load_replies (s : State) (c : Word) : (s.load c).replies = s.replies := rfl
@[simp] theorem load_draws (s : State) (c : Word) : (s.load c).draws = s.draws := rfl
@[simp] theorem load_cmd (s : State) (c : Word) : (s.load c).cmd = c := rfl
@[simp] theorem load_phase (s : State) (c : Word) : (s.load c).phase = .busy c := rfl
@[simp] theorem load_done (s : State) (c : Word) : (s.load c).status.done = false := rfl
@[simp] theorem load_err (s : State) (c : Word) : (s.load c).status.err = false := rfl
@[simp] theorem load_errCode (s : State) (c : Word) : (s.load c).status.errCode = 0#4 := rfl
@[simp] theorem load_hz (s : State) (c : Word) : (s.load c).status.hz = s.status.hz := rfl
@[simp] theorem load_z (s : State) (c : Word) : (s.load c).status.z = s.status.z := rfl
@[simp] theorem load_xs (s : State) (c : Word) : (s.load c).status.xs = s.status.xs := rfl
@[simp] theorem load_ys (s : State) (c : Word) : (s.load c).status.ys = s.status.ys := rfl
@[simp] theorem load_x (s : State) (c : Word) (i : Reg) : (s.load c).x i = s.x i := rfl

/-! ### hazard -/

@[simp] theorem hazard_params (s : State) : (s.hazard).params = s.params := rfl
@[simp] theorem hazard_regs (s : State) : (s.hazard).regs = s.regs := rfl
@[simp] theorem hazard_cmd (s : State) : (s.hazard).cmd = s.cmd := rfl
@[simp] theorem hazard_ie (s : State) : (s.hazard).ie = s.ie := rfl
@[simp] theorem hazard_phase (s : State) : (s.hazard).phase = s.phase := rfl
@[simp] theorem hazard_resetInput (s : State) : (s.hazard).resetInput = s.resetInput := rfl
@[simp] theorem hazard_pending (s : State) : (s.hazard).pending = s.pending := rfl
@[simp] theorem hazard_replies (s : State) : (s.hazard).replies = s.replies := rfl
@[simp] theorem hazard_draws (s : State) : (s.hazard).draws = s.draws := rfl
@[simp] theorem hazard_done (s : State) : s.hazard.status.done = s.status.done := rfl
@[simp] theorem hazard_err (s : State) : s.hazard.status.err = s.status.err := rfl
@[simp] theorem hazard_hz (s : State) : s.hazard.status.hz = true := rfl
@[simp] theorem hazard_errCode (s : State) : s.hazard.status.errCode = s.status.errCode := rfl
@[simp] theorem hazard_z (s : State) : s.hazard.status.z = s.status.z := rfl
@[simp] theorem hazard_xs (s : State) : s.hazard.status.xs = s.status.xs := rfl
@[simp] theorem hazard_ys (s : State) : s.hazard.status.ys = s.status.ys := rfl
@[simp] theorem hazard_x (s : State) (i : Reg) : s.hazard.x i = s.x i := rfl

/-! ### engineReset -/

@[simp] theorem engineReset_params (s : State) : (s.engineReset).params = s.params := rfl
@[simp] theorem engineReset_resetInput (s : State) : (s.engineReset).resetInput = s.resetInput := rfl
@[simp] theorem engineReset_pending (s : State) : (s.engineReset).pending = s.pending := rfl
@[simp] theorem engineReset_replies (s : State) : (s.engineReset).replies = s.replies := rfl
@[simp] theorem engineReset_draws (s : State) : (s.engineReset).draws = s.draws := rfl
@[simp] theorem engineReset_regs (s : State) : s.engineReset.regs = Vector.replicate 16 0 := rfl
@[simp] theorem engineReset_cmd (s : State) : s.engineReset.cmd = 0x00000000#32 := rfl
@[simp] theorem engineReset_status (s : State) : s.engineReset.status = Status.reset := rfl
@[simp] theorem engineReset_ie (s : State) : s.engineReset.ie = false := rfl
@[simp] theorem engineReset_phase (s : State) : s.engineReset.phase = .idle := rfl
@[simp] theorem engineReset_engineReset (s : State) : s.engineReset.engineReset = s.engineReset := rfl
@[simp] theorem engineReset_x (s : State) (i : Reg) : s.engineReset.x i = 0 := by
  simp [State.x]

/-! ### answer -/

@[simp] theorem answer_params (s : State) (r : Reply) : (s.answer r).params = s.params := rfl
@[simp] theorem answer_regs (s : State) (r : Reply) : (s.answer r).regs = s.regs := rfl
@[simp] theorem answer_cmd (s : State) (r : Reply) : (s.answer r).cmd = s.cmd := rfl
@[simp] theorem answer_status (s : State) (r : Reply) : (s.answer r).status = s.status := rfl
@[simp] theorem answer_ie (s : State) (r : Reply) : (s.answer r).ie = s.ie := rfl
@[simp] theorem answer_phase (s : State) (r : Reply) : (s.answer r).phase = s.phase := rfl
@[simp] theorem answer_resetInput (s : State) (r : Reply) : (s.answer r).resetInput = s.resetInput := rfl
@[simp] theorem answer_pending (s : State) (r : Reply) : (s.answer r).pending = s.pending := rfl
@[simp] theorem answer_draws (s : State) (r : Reply) : (s.answer r).draws = s.draws := rfl
@[simp] theorem answer_replies (s : State) (r : Reply) : (s.answer r).replies = s.replies ++ [r] := rfl
@[simp] theorem answer_x (s : State) (r : Reply) (i : Reg) : (s.answer r).x i = s.x i := rfl

/-! ### Views of the state -/

@[simp] theorem busy_of_idle {s : State} (h : s.phase = .idle) : s.busy = false := by simp [State.busy, h]

@[simp] theorem busy_of_busy {s : State} {c : Word} (h : s.phase = .busy c) : s.busy = true := by
  simp [State.busy, h]

theorem busy_iff (s : State) : s.busy = true ↔ ∃ c, s.phase = .busy c := by
  unfold State.busy
  cases s.phase <;> simp

theorem busy_eq_false_iff (s : State) : s.busy = false ↔ s.phase = .idle := by
  unfold State.busy
  cases s.phase <;> simp

theorem held_of_released {s : State} (h : s.resetInput = false) : s.held = s := by simp [State.held, h]

theorem held_of_asserted {s : State} (h : s.resetInput = true) : s.held = s.engineReset := by
  simp [State.held, h]

end Sys2Proof.Machine
end

