-- ==== Sys2Proof/Laws/Ops.lean ====
section
/-! SUPPORT. Everything that the shared operations can do: completion, limbs, the checks. -/

namespace Sys2Proof.Machine

/-! ### Completion (10_state.md R31, R32) -/

@[simp] theorem complete_ok (l : List (Reg × Nat)) (f : Option Flags) (s : State) :
    complete (.ok l f) s = .next (s.completeOk l f) := rfl

@[simp] theorem complete_err (e : ErrCode) (s : State) : complete (.err e) s = .next (s.completeError e) := rfl

/-- A completion never stops. -/
theorem complete_cases (r : Result) (s : State) :
    (∃ l f, r = .ok l f ∧ complete r s = .next (s.completeOk l f)) ∨
      (∃ e, r = .err e ∧ complete r s = .next (s.completeError e)) := by
  cases r with
  | ok l f => exact .inl ⟨l, f, rfl, rfl⟩
  | err e => exact .inr ⟨e, rfl, rfl⟩

theorem completeOk_commandFrame (s : State) (l : List (Reg × Nat)) (f : Option Flags) :
    CommandFrame s (s.completeOk l f) := by
  constructor <;> simp

theorem completeOk_succeeded (s : State) (l : List (Reg × Nat)) (f : Flags) :
    Succeeded s (s.completeOk l (some f)) f.z f.xs f.ys := by
  constructor <;> simp [completeOk_commandFrame]

theorem completeOk_succeeded_none (s : State) (l : List (Reg × Nat)) :
    Succeeded s (s.completeOk l none) s.status.z s.status.xs s.status.ys := by
  constructor <;> simp [completeOk_commandFrame]

theorem completeError_failed (s : State) (e : ErrCode) : Failed s (s.completeError e) e := by
  constructor <;> first | simp | (constructor <;> simp)

theorem completeError_of (s : State) (e : ErrCode) : ∃ t, complete (.err e) s = .next t ∧ Failed s t e :=
  ⟨_, rfl, completeError_failed s e⟩

/-- A register that a successful completion does not write is unchanged. -/
theorem completeOk_regsKept (s : State) (l : List (Reg × Nat)) (f : Option Flags) :
    RegsKeptExcept s (s.completeOk l f) (l.map Prod.fst) := by
  intro i hi
  rw [completeOk_x, x_writeAll_of_notMem _ _ _ hi]

@[simp] theorem writeAll_one_x (s : State) (rd : Reg) (v : Nat) : (s.writeAll [(rd, v)]).x rd = v := by
  simp [State.writeAll]

/-- The completion of a command with one destination (R33). -/
theorem complete_okOne (s : State) (rd : Reg) (v : Nat) : ∃ t, complete (okOne rd v) s = .next t ∧
    t.x rd = v ∧ RegsKeptExcept s t [rd] ∧ Succeeded s t (v == 0) false false :=
  ⟨_, rfl, by simp, completeOk_regsKept s [(rd, v)] _, completeOk_succeeded s _ (zeroFlags v)⟩

/-- The same, for a value given by an equation. -/
theorem complete_okOne_of_eq {s : State} {rd : Reg} {v w : Nat} (h : v = w) :
    ∃ t, complete (okOne rd v) s = .next t ∧
      t.x rd = w ∧ RegsKeptExcept s t [rd] ∧ Succeeded s t (w == 0) false false := by
  subst h
  exact complete_okOne s rd v

/-! ### The checks (43_montgomery.md R171, 41_gcd_stepper.md R122, R123) -/

theorem montCheck_eq_none_iff (n : Nat) (ds : List Nat) :
    montCheck n ds = none ↔ n % 2 = 1 ∧ ∀ d ∈ ds, d < n := by
  unfold montCheck
  split
  · rename_i h; simp [h]
  · split
    · rename_i h; simp; omega
    · split
      · rename_i h
        simp only [List.any_eq_true, decide_eq_true_eq] at h
        obtain ⟨d, hd, hle⟩ := h
        simp only [reduceCtorEq, false_iff, not_and, not_forall]
        exact fun _ => ⟨d, hd, by omega⟩
      · rename_i h
        simp only [List.any_eq_true, decide_eq_true_eq, not_exists, not_and] at h
        simp only [true_iff]
        exact ⟨by omega, fun d hd => by have := h d hd; omega⟩

theorem gcdstepOperandsOk_iff (rd rs1 rs2 : Reg) :
    gcdstepOperandsOk rd rs1 rs2 = true ↔ rd ≠ rs1 ∧ rd ≠ rs2 ∧ rs1 ≠ rs2 := by
  simp [gcdstepOperandsOk, and_assoc]

theorem egcdOperandsOk_iff (rd : Reg) : egcdOperandsOk rd = true ↔ rd.val ≤ 13 := by
  simp [egcdOperandsOk]

/-- The engine's OPERAND checks are the constraints of WellFormed.lean (30_encoding.md R88). -/
theorem wellFormed_gcdstep (rd rs1 rs2 : Reg) :
    (Instr.gcdstep rd rs1 rs2).wellFormed = gcdstepOperandsOk rd rs1 rs2 := by
  rw [Bool.eq_iff_iff, gcdstepOperandsOk_iff]
  simp [Instr.wellFormed, gcdstepFieldsDistinct, and_assoc]

theorem wellFormed_egcd (rd rs1 rs2 : Reg) : (Instr.egcd rd rs1 rs2).wellFormed = egcdOperandsOk rd := by
  rw [Bool.eq_iff_iff, egcdOperandsOk_iff]
  simp [Instr.wellFormed, egcdGroupFits]

theorem regPlus_val {i : Reg} {k : Nat} (h : i.val + k < 16) : (regPlus i k).val = i.val + k := by
  simp [regPlus, Nat.mod_eq_of_lt h]

/-! ### Limbs (20_memory.md R53, R55) -/

theorem W_pos (p : Params) : 64 ≤ p.W := by unfold Params.W; omega

/-- W is 32 times the number of limbs. -/
theorem W_eq_limbs (p : Params) : p.W = 32 * p.limbs := by unfold Params.limbs Params.W; omega

theorem limbOf_toNat (v j : Nat) : (limbOf v j).toNat = v / 2 ^ (32 * j) % 2 ^ 32 := by
  simp [limbOf]

/-- `withLimb` as a digit replaced in base 2^32. -/
theorem withLimb_div_mod (v j : Nat) (limb : Word) :
    withLimb v j limb / 2 ^ (32 * (j + 1)) = v / 2 ^ (32 * (j + 1)) ∧
      withLimb v j limb % 2 ^ (32 * (j + 1)) = limb.toNat * 2 ^ (32 * j) + v % 2 ^ (32 * j) := by
  have hl : limb.toNat < 2 ^ 32 := limb.isLt
  have hm : v % 2 ^ (32 * j) < 2 ^ (32 * j) := Nat.mod_lt _ (by positivity)
  have hp : 2 ^ (32 * (j + 1)) = 2 ^ 32 * 2 ^ (32 * j) := by rw [← pow_add]; congr 1; ring
  have hlow : limb.toNat * 2 ^ (32 * j) + v % 2 ^ (32 * j) < 2 ^ (32 * (j + 1)) := by
    rw [hp]
    have : (limb.toNat + 1) * 2 ^ (32 * j) ≤ 2 ^ 32 * 2 ^ (32 * j) := Nat.mul_le_mul_right _ hl
    rw [Nat.add_mul, Nat.one_mul] at this
    omega
  unfold withLimb
  rw [Nat.add_assoc]
  constructor
  · rw [Nat.mul_comm, Nat.mul_add_div (by positivity), Nat.div_eq_of_lt hlow, Nat.add_zero]
  · rw [Nat.mul_comm, Nat.mul_add_mod, Nat.mod_eq_of_lt hlow]

/-- The limb written reads back. -/
theorem limbOf_withLimb_self (v j : Nat) (limb : Word) : limbOf (withLimb v j limb) j = limb := by
  apply BitVec.eq_of_toNat_eq
  rw [limbOf_toNat]
  have h := (withLimb_div_mod v j limb).2
  have hm : v % 2 ^ (32 * j) < 2 ^ (32 * j) := Nat.mod_lt _ (by positivity)
  have hp : 2 ^ (32 * (j + 1)) = 2 ^ (32 * j) * 2 ^ 32 := by rw [← pow_add]; congr 1
  rw [hp, Nat.mod_mul] at h
  have hb : withLimb v j limb % 2 ^ (32 * j) < 2 ^ (32 * j) := Nat.mod_lt _ (by positivity)
  have hdm := congrArg (· / 2 ^ (32 * j)) h
  rw [Nat.add_mul_div_left _ _ (by positivity), Nat.div_eq_of_lt hb, Nat.mul_comm limb.toNat,
    Nat.mul_add_div (by positivity), Nat.div_eq_of_lt hm] at hdm
  omega

/-- The limbs above and below the one written are unchanged. -/
theorem limbOf_withLimb_ne (v : Nat) {j k : Nat} (limb : Word) (h : k ≠ j) :
    limbOf (withLimb v j limb) k = limbOf v k := by
  apply BitVec.eq_of_toNat_eq
  rw [limbOf_toNat, limbOf_toNat]
  have hdm := withLimb_div_mod v j limb
  rcases Nat.lt_or_gt_of_ne h with hk | hk
  · have hsplit : ∀ u : Nat, u / 2 ^ (32 * k) % 2 ^ 32 = u % 2 ^ (32 * j) / 2 ^ (32 * k) % 2 ^ 32 := by
      intro u
      have e : 2 ^ (32 * j) = 2 ^ (32 * k) * (2 ^ 32 * 2 ^ (32 * (j - k - 1))) := by
        rw [← pow_add, ← pow_add]; congr 1; omega
      rw [e, Nat.mod_mul_right_div_self, Nat.mod_mul_right_mod]
    rw [hsplit, hsplit v]
    congr 2
    have hp : 2 ^ (32 * (j + 1)) = 2 ^ (32 * j) * 2 ^ 32 := by rw [← pow_add]; congr 1
    have h2 := congrArg (· % 2 ^ (32 * j)) hdm.2
    simp only [hp, Nat.mod_mul_right_mod] at h2
    rw [h2, Nat.mul_comm, Nat.mul_add_mod, Nat.mod_mod]
  · have e : 2 ^ (32 * k) = 2 ^ (32 * (j + 1)) * 2 ^ (32 * (k - (j + 1))) := by
      rw [← pow_add]; congr 1; omega
    rw [e, ← Nat.div_div_eq_div_mul, ← Nat.div_div_eq_div_mul, hdm.1]

/-- A limb write keeps a register within W bits. -/
theorem withLimb_lt {v j n : Nat} (limb : Word) (hj : j < n) (hv : v < 2 ^ (32 * n)) :
    withLimb v j limb < 2 ^ (32 * n) := by
  have e : 2 ^ (32 * n) = 2 ^ (32 * (j + 1)) * 2 ^ (32 * (n - (j + 1))) := by rw [← pow_add]; congr 1; omega
  rw [e, Nat.mul_comm] at hv ⊢
  rw [← Nat.div_lt_iff_lt_mul (by positivity), (withLimb_div_mod v j limb).1,
    Nat.div_lt_iff_lt_mul (by positivity)]
  exact hv

/-- The first n limbs spell the value modulo 2^(32n). -/
theorem sum_limbs (v n : Nat) :
    ((List.range n).map (fun j => (limbOf v j).toNat * 2 ^ (32 * j))).sum = v % 2 ^ (32 * n) := by
  induction n with
  | zero => simp [Nat.mod_one]
  | succ n ih =>
    rw [List.range_succ, List.map_append, List.sum_append, ih]
    have hp : 2 ^ (32 * (n + 1)) = 2 ^ (32 * n) * 2 ^ 32 := by rw [← pow_add]; congr 1
    rw [hp, Nat.mod_mul]
    simp [limbOf_toNat, Nat.mul_comm]

/-- Two values within n limbs are equal when their limbs are. -/
theorem eq_of_limbs {n a b : Nat} (ha : a < 2 ^ (32 * n)) (hb : b < 2 ^ (32 * n))
    (h : ∀ j, j < n → limbOf a j = limbOf b j) : a = b := by
  have h1 := sum_limbs a n
  have h2 := sum_limbs b n
  rw [Nat.mod_eq_of_lt ha] at h1
  rw [Nat.mod_eq_of_lt hb] at h2
  rw [← h1, ← h2]
  congr 1
  apply List.map_congr_left
  intro j hj
  rw [h j (List.mem_range.mp hj)]

end Sys2Proof.Machine
end

