-- ==== Sys2Proof/Laws/Bus.lean ====
section
/-! SUPPORT. The address map, and everything that one host access can do (20_memory.md R50 to R61). -/

namespace Sys2Proof.Machine

/-! ### The address map (R50, R52, R53, R56, R57) -/

@[simp] theorem windowOffset_base_add {p : Params} {off : Nat} (h : off < 0x10000) :
    windowOffset p (p.base + off) = some off := by
  unfold windowOffset Config.windowBytes
  rw [if_pos ⟨by omega, by omega⟩]
  simp

theorem windowOffset_outside {p : Params} {addr : Nat} (h : addr < p.base ∨ p.base + 0x10000 ≤ addr) :
    windowOffset p addr = none := by
  unfold windowOffset Config.windowBytes
  rw [if_neg (by omega)]

theorem limbs_le (p : Params) : p.limbs ≤ 256 := by
  unfold Params.limbs Params.W
  omega

theorem limbOffset_lt (p : Params) (i : Reg) {j : Nat} (hj : j < p.limbs) : limbOffset i j < 0x5000 := by
  have := limbs_le p
  unfold limbOffset
  omega

@[simp] theorem targetOf_id (p : Params) : targetOf p 0x0000 = some .id := rfl
@[simp] theorem targetOf_config (p : Params) : targetOf p 0x0004 = some .config := rfl
@[simp] theorem targetOf_cmd (p : Params) : targetOf p 0x0008 = some .cmd := rfl
@[simp] theorem targetOf_status (p : Params) : targetOf p 0x000C = some .status := rfl
@[simp] theorem targetOf_ctrl (p : Params) : targetOf p 0x0010 = some .ctrl := rfl

/-- Limb j of vi is at off(i, j) (R53). -/
theorem targetOf_limbOffset (p : Params) (i : Reg) {j : Nat} (hj : j < p.limbs) :
    targetOf p (limbOffset i j) = some (.limb i j) := by
  have hl := limbs_le p
  have hi := i.isLt
  unfold targetOf limbOffset
  rw [if_neg (by omega), if_neg (by omega), if_neg (by omega), if_neg (by omega), if_neg (by omega),
    if_pos ⟨by omega, by omega⟩]
  have h1 : (0x1000 + 0x400 * i.val + 4 * j - 0x1000) / 0x400 = i.val := by omega
  have h2 : (0x1000 + 0x400 * i.val + 4 * j - 0x1000) % 0x400 / 4 = j := by omega
  simp [h1, h2, hj]

/-- A target that is a limb lies within the register, at an offset of the register file. -/
theorem targetOf_limb_inv {p : Params} {off : Nat} {i : Reg} {j : Nat} (h : targetOf p off = some (.limb i j)) :
    j < p.limbs := by
  unfold targetOf at h
  repeat' split at h
  all_goals first | cases h | skip
  simp only at h
  split at h
  · rename_i hj
    cases Option.some.inj h
    exact hj
  · exact absurd h (by simp)

/-- Reserved offsets (R57) and offsets beyond the last limb (R56) name nothing. -/
theorem targetOf_reserved {p : Params} {off : Nat}
    (h : (0x0014 ≤ off ∧ off ≤ 0x0FFF) ∨ 0x5000 ≤ off ∨
      (∃ i j, i < 16 ∧ p.limbs ≤ j ∧ j < 256 ∧ off = 0x1000 + 0x400 * i + 4 * j)) : targetOf p off = none := by
  unfold targetOf
  rcases h with h | h | ⟨i, j, hi, hj, hj2, rfl⟩
  · rw [if_neg (by omega), if_neg (by omega), if_neg (by omega), if_neg (by omega), if_neg (by omega),
      if_neg (by omega)]
  · rw [if_neg (by omega), if_neg (by omega), if_neg (by omega), if_neg (by omega), if_neg (by omega),
      if_neg (by omega)]
  · rw [if_neg (by omega), if_neg (by omega), if_neg (by omega), if_neg (by omega), if_neg (by omega),
      if_pos ⟨by omega, by omega⟩]
    simp only
    rw [if_neg (by omega)]

/-! ### What a read and a write leave alone -/

section frames
variable (t : Target) (v : Word) (s : State)

@[simp] theorem writeStatus_x (i : Reg) : (writeStatus v s).x i = s.x i := rfl

@[simp] theorem issue_x (i : Reg) : (s.issue v).x i = s.x i := by
  unfold State.issue; split <;> simp

@[simp] theorem readTarget_params : (readTarget t s).2.params = s.params := by
  cases t <;> simp [readTarget]
  split <;> simp

@[simp] theorem readTarget_regs : (readTarget t s).2.regs = s.regs := by
  cases t <;> simp [readTarget]
  split <;> simp

@[simp] theorem readTarget_x (i : Reg) : (readTarget t s).2.x i = s.x i := by simp [State.x]

@[simp] theorem readTarget_cmd : (readTarget t s).2.cmd = s.cmd := by
  cases t <;> simp [readTarget]
  split <;> simp

@[simp] theorem readTarget_ie : (readTarget t s).2.ie = s.ie := by
  cases t <;> simp [readTarget]
  split <;> simp

@[simp] theorem readTarget_phase : (readTarget t s).2.phase = s.phase := by
  cases t <;> simp [readTarget]
  split <;> simp

@[simp] theorem readTarget_resetInput : (readTarget t s).2.resetInput = s.resetInput := by
  cases t <;> simp [readTarget]
  split <;> simp

@[simp] theorem readTarget_pending : (readTarget t s).2.pending = s.pending := by
  cases t <;> simp [readTarget]
  split <;> simp

@[simp] theorem readTarget_replies : (readTarget t s).2.replies = s.replies := by
  cases t <;> simp [readTarget]
  split <;> simp

/-- A read changes STATUS only by setting HZ, and only at a limb while busy (R61). -/
theorem readTarget_status : (readTarget t s).2.status = s.status ∨
    ((∃ i j, t = .limb i j) ∧ s.busy = true ∧ (readTarget t s).2.status = { s.status with hz := true }) := by
  cases t <;> simp [readTarget]
  cases h : s.busy <;> simp [State.hazard]

@[simp] theorem writeTarget_params : (writeTarget t v s).params = s.params := by
  cases t <;> simp [writeTarget, writeStatus, writeCtrl, State.issue, State.setLimb] <;> split <;> simp

@[simp] theorem writeTarget_resetInput : (writeTarget t v s).resetInput = s.resetInput := by
  cases t <;> simp [writeTarget, writeStatus, writeCtrl, State.issue, State.setLimb] <;> split <;> simp

@[simp] theorem writeTarget_pending : (writeTarget t v s).pending = s.pending := by
  cases t <;> simp [writeTarget, writeStatus, writeCtrl, State.issue, State.setLimb] <;> split <;> simp

@[simp] theorem writeTarget_replies : (writeTarget t v s).replies = s.replies := by
  cases t <;> simp [writeTarget, writeStatus, writeCtrl, State.issue, State.setLimb] <;> split <;> simp

@[simp] theorem writeTarget_draws : (writeTarget t v s).draws = s.draws := by
  cases t <;> simp [writeTarget, writeStatus, writeCtrl, State.issue, State.setLimb] <;> split <;> simp

end frames

/-! ### One host access (R51, R61, R207) -/

/-- An access that names a target is performed on it. -/
theorem busAccess_names {off : Nat} {t : Target} {s : State} (h4 : off % 4 = 0)
    (ht : targetOf s.params off = some t) (op : AccessOp) :
    busAccess off 4 op s =
      match op with
      | .read => .ok ((readTarget t s).2, .data off (readTarget t s).1)
      | .write v => .ok (writeTarget t v s, .written off) := by
  unfold busAccess
  rw [if_neg (by omega)]
  cases op <;> simp [ht]

/-- A bus error (R51, R56, R57). -/
theorem busAccess_error {off bytes : Nat} {s : State} (op : AccessOp)
    (h : bytes ≠ 4 ∨ off % 4 ≠ 0 ∨ targetOf s.params off = none) :
    busAccess off bytes op s = .error (.busError off) := by
  unfold busAccess
  split
  · rfl
  · rename_i hn
    have : targetOf s.params off = none := by
      rcases h with h | h | h
      · exact absurd (Or.inl h) hn
      · exact absurd (Or.inr h) hn
      · exact h
    simp [this]

theorem serve_read {off : Nat} {t : Target} {s : State} (hoff : off < 0x10000) (h4 : off % 4 = 0)
    (ht : targetOf s.params off = some t) :
    s.serve { addr := s.params.base + off, bytes := 4, op := .read } =
      (readTarget t s).2.answer (.data off (readTarget t s).1) := by
  simp [State.serve, windowOffset_base_add hoff, busAccess_names h4 ht]

theorem serve_write {off : Nat} {t : Target} {s : State} (hoff : off < 0x10000) (h4 : off % 4 = 0)
    (ht : targetOf s.params off = some t) (v : Word) :
    s.serve { addr := s.params.base + off, bytes := 4, op := .write v } =
      (writeTarget t v s).answer (.written off) := by
  simp [State.serve, windowOffset_base_add hoff, busAccess_names h4 ht]

theorem serve_busError {off bytes : Nat} {s : State} (op : AccessOp) (hoff : off < 0x10000)
    (h : bytes ≠ 4 ∨ off % 4 ≠ 0 ∨ targetOf s.params off = none) :
    s.serve { addr := s.params.base + off, bytes := bytes, op := op } = s.answer (.busError off) := by
  simp [State.serve, windowOffset_base_add hoff, busAccess_error op h]

/-- Everything that a host access can do: nothing, a bus error, a read or a write. -/
theorem serve_cases (s : State) (a : Access) :
    (windowOffset s.params a.addr = none ∧ s.serve a = s) ∨
    ((∀ t, ¬ a.names s.params t) ∧ ∃ off, s.serve a = s.answer (.busError off)) ∨
    (∃ off t, a.names s.params t ∧ a.op = .read ∧
      s.serve a = (readTarget t s).2.answer (.data off (readTarget t s).1)) ∨
    (∃ off t v, a.names s.params t ∧ a.op = .write v ∧ s.serve a = (writeTarget t v s).answer (.written off)) := by
  obtain ⟨addr, bytes, op⟩ := a
  cases hw : windowOffset s.params addr with
  | none => exact .inl ⟨rfl, by simp [State.serve, hw]⟩
  | some off =>
    right
    by_cases hbad : bytes ≠ 4 ∨ off % 4 ≠ 0 ∨ targetOf s.params off = none
    · refine .inl ⟨?_, off, by simp [State.serve, hw, busAccess_error op hbad]⟩
      rintro t ⟨off', h1, h2, h3, h4⟩
      simp only at h1 h2
      rw [hw] at h1
      cases Option.some.inj h1
      rcases hbad with h | h | h
      · exact h h2
      · exact h h3
      · rw [h] at h4; exact absurd h4 (by simp)
    · simp only [not_or, not_not] at hbad
      obtain ⟨rfl, h4, ht⟩ := hbad
      obtain ⟨t, ht⟩ := Option.ne_none_iff_exists'.mp ht
      have hn : Access.names { addr := addr, bytes := 4, op := op } s.params t := ⟨off, hw, rfl, h4, ht⟩
      right
      cases op with
      | read => exact .inl ⟨off, t, hn, rfl, by simp [State.serve, hw, busAccess_names h4 ht]⟩
      | write v => exact .inr ⟨off, t, v, hn, rfl, by simp [State.serve, hw, busAccess_names h4 ht]⟩

/-- An access names at most one target. -/
theorem names_unique {a : Access} {p : Params} {t u : Target} (h : a.names p t) (h' : a.names p u) : t = u := by
  obtain ⟨off, h1, _, _, h4⟩ := h
  obtain ⟨off', h1', _, _, h4'⟩ := h'
  rw [h1] at h1'
  cases Option.some.inj h1'
  rw [h4] at h4'
  exact Option.some.inj h4'

/-- What a host access can do to a busy engine: it leaves the command, the operands and the flags as they are, or it
writes SRST = 1 and the engine is idle. -/
theorem serve_of_busy {s : State} {a : Access} {c : Word} (h : s.phase = .busy c) :
    ((s.serve a).phase = .busy c ∧ (s.serve a).regs = s.regs ∧ (s.serve a).cmd = s.cmd ∧
      (s.serve a).status.z = s.status.z ∧ (s.serve a).status.xs = s.status.xs ∧
      (s.serve a).status.ys = s.status.ys) ∨
    ((s.serve a).phase = .idle ∧ ∃ v, a.names s.params .ctrl ∧ a.op = .write v ∧ v.getLsbD 1 = true) := by
  rcases serve_cases s a with ⟨_, e⟩ | ⟨_, off, e⟩ | ⟨off, t, _, _, e⟩ | ⟨off, t, v, hn, ho, e⟩
  · left; rw [e]; simp [h]
  · left; rw [e]; simp [h]
  · left; rw [e]
    rcases readTarget_status t s with hst | ⟨_, _, hst⟩ <;> simp [h, hst]
  · rw [e]
    cases t with
    | ctrl =>
      cases hv : v.getLsbD 1 with
      | false => left; simp only [writeTarget, writeCtrl, hv]; simp [h]
      | true => right; simp only [writeTarget, writeCtrl, hv, if_true]; simp [hn, ho, hv]
    | _ => left; simp [writeTarget, writeStatus, State.issue, h]

@[simp] theorem serve_params (s : State) (a : Access) : (s.serve a).params = s.params := by
  rcases serve_cases s a with ⟨_, h⟩ | ⟨_, off, h⟩ | ⟨off, t, _, _, h⟩ | ⟨off, t, v, _, _, h⟩ <;> rw [h] <;> simp

@[simp] theorem serve_resetInput (s : State) (a : Access) : (s.serve a).resetInput = s.resetInput := by
  rcases serve_cases s a with ⟨_, h⟩ | ⟨_, off, h⟩ | ⟨off, t, _, _, h⟩ | ⟨off, t, v, _, _, h⟩ <;> rw [h] <;> simp

@[simp] theorem serve_pending (s : State) (a : Access) : (s.serve a).pending = s.pending := by
  rcases serve_cases s a with ⟨_, h⟩ | ⟨_, off, h⟩ | ⟨off, t, _, _, h⟩ | ⟨off, t, v, _, _, h⟩ <;> rw [h] <;> simp

end Sys2Proof.Machine
end

