-- ==== Sys2Proof/Laws/Decode.lean ====
section
/-! SUPPORT. The bits and the fields of an encoded word, and the rows of the opcode map by opcode
(30_encoding.md R81 to R84). -/

namespace Sys2Proof

/-! ### Encoded words, bit by bit (R81, R82) -/

theorem getLsbD_encodeR (op : BitVec 8) (rd rs1 rs2 rs3 : Reg) (i : Nat) :
    (encodeR op rd rs1 rs2 rs3).getLsbD i =
      if i < 8 then op.getLsbD i else if i < 12 then rd.val.testBit (i - 8)
      else if i < 16 then rs1.val.testBit (i - 12) else if i < 20 then rs2.val.testBit (i - 16)
      else if i < 24 then rs3.val.testBit (i - 20) else false := by
  unfold encodeR
  simp only [BitVec.getLsbD_append, BitVec.getLsbD_ofFin, BitVec.getLsbD_zero]
  by_cases h1 : i < 8
  · simp [h1]
  by_cases h2 : i < 12
  · simp [h1, h2, show i - 8 < 4 by omega]
  by_cases h3 : i < 16
  · simp [h1, h2, h3, show ¬ i - 8 < 4 by omega, show i - 12 < 4 by omega, Nat.sub_sub]
  by_cases h4 : i < 20
  · simp [h1, h2, h3, h4, show ¬ i - 8 < 4 by omega, show ¬ i - 12 < 4 by omega, show i - 16 < 4 by omega,
      Nat.sub_sub]
  by_cases h5 : i < 24
  · simp [h1, h2, h3, h4, h5, show ¬ i - 8 < 4 by omega, show ¬ i - 12 < 4 by omega,
      show ¬ i - 16 < 4 by omega, show i - 20 < 4 by omega, Nat.sub_sub]
  · simp [h1, h2, h3, h4, h5, show ¬ i - 8 < 4 by omega, show ¬ i - 12 < 4 by omega,
      show ¬ i - 16 < 4 by omega, show ¬ i - 20 < 4 by omega, Nat.sub_sub]

theorem getLsbD_encodeI (op : BitVec 8) (rd : Reg) (imm16 : BitVec 16) (i : Nat) :
    (encodeI op rd imm16).getLsbD i =
      if i < 8 then op.getLsbD i else if i < 12 then rd.val.testBit (i - 8)
      else if i < 16 then false else imm16.getLsbD (i - 16) := by
  unfold encodeI
  simp only [BitVec.getLsbD_append, BitVec.getLsbD_ofFin, BitVec.getLsbD_zero]
  by_cases h1 : i < 8
  · simp [h1]
  by_cases h2 : i < 12
  · simp [h1, h2, show i - 8 < 4 by omega]
  by_cases h3 : i < 16
  · simp [h1, h2, h3, show ¬ i - 8 < 4 by omega, show i - 12 < 4 by omega, Nat.sub_sub]
  · simp [h1, h2, h3, show ¬ i - 8 < 4 by omega, show ¬ i - 12 < 4 by omega, Nat.sub_sub]

/-- The bits of a register field that starts at bit `lo` of a word. -/
theorem testBit_field (c : Word) (lo k : Nat) (hk : k < 4) :
    (c.extractLsb' lo 4).toFin.val.testBit k = c.getLsbD (lo + k) := by
  have h : ((c.extractLsb' lo 4).toFin.val).testBit k = (c.extractLsb' lo 4).getLsbD k := rfl
  rw [h, BitVec.getLsbD_extractLsb']
  simp [hk]

/-- The register fields, bit by bit (R88). -/
theorem testBit_rdField (c : Word) {k : Nat} (hk : k < 4) : (rdField c).val.testBit k = c.getLsbD (8 + k) :=
  testBit_field c 8 k hk

theorem testBit_rs1Field (c : Word) {k : Nat} (hk : k < 4) : (rs1Field c).val.testBit k = c.getLsbD (12 + k) :=
  testBit_field c 12 k hk

theorem testBit_rs2Field (c : Word) {k : Nat} (hk : k < 4) : (rs2Field c).val.testBit k = c.getLsbD (16 + k) :=
  testBit_field c 16 k hk

theorem testBit_rs3Field (c : Word) {k : Nat} (hk : k < 4) : (rs3Field c).val.testBit k = c.getLsbD (20 + k) :=
  testBit_field c 20 k hk

theorem getLsbD_imm16Field (c : Word) {k : Nat} (hk : k < 16) : (imm16Field c).getLsbD k = c.getLsbD (16 + k) := by
  rw [imm16Field, BitVec.getLsbD_extractLsb']
  simp [hk]

/-! ### Fields of an encoded word (R88, R87) -/

/-- A register field of an encoded word is the register whose bits stand there. -/
theorem field_of_bits {c : Word} {lo : Nat} {r : Reg} (h : ∀ k, k < 4 → c.getLsbD (lo + k) = r.val.testBit k) :
    ((c.extractLsb' lo 4).toFin : Reg) = r := by
  have hb : c.extractLsb' lo 4 = BitVec.ofFin (w := 4) r := by
    apply BitVec.eq_of_getLsbD_eq
    intro k hk
    rw [BitVec.getLsbD_extractLsb', h k hk, BitVec.getLsbD_ofFin]
    simp [hk]
  rw [hb]

@[simp] theorem opField_encodeR (op : BitVec 8) (rd rs1 rs2 rs3 : Reg) :
    opField (encodeR op rd rs1 rs2 rs3) = op := by
  apply BitVec.eq_of_getLsbD_eq
  intro k hk
  rw [opField, BitVec.getLsbD_extractLsb', getLsbD_encodeR]
  simp [hk]

@[simp] theorem rdField_encodeR (op : BitVec 8) (rd rs1 rs2 rs3 : Reg) :
    rdField (encodeR op rd rs1 rs2 rs3) = rd :=
  field_of_bits fun k hk => by
    rw [getLsbD_encodeR]
    simp [show ¬ 8 + k < 8 by omega, show 8 + k < 12 by omega]

@[simp] theorem rs1Field_encodeR (op : BitVec 8) (rd rs1 rs2 rs3 : Reg) :
    rs1Field (encodeR op rd rs1 rs2 rs3) = rs1 :=
  field_of_bits fun k hk => by
    rw [getLsbD_encodeR]
    simp [show ¬ 12 + k < 8 by omega, show ¬ 12 + k < 12 by omega, show 12 + k < 16 by omega]

@[simp] theorem rs2Field_encodeR (op : BitVec 8) (rd rs1 rs2 rs3 : Reg) :
    rs2Field (encodeR op rd rs1 rs2 rs3) = rs2 :=
  field_of_bits fun k hk => by
    rw [getLsbD_encodeR]
    simp [show ¬ 16 + k < 8 by omega, show ¬ 16 + k < 12 by omega, show ¬ 16 + k < 16 by omega,
      show 16 + k < 20 by omega]

@[simp] theorem rs3Field_encodeR (op : BitVec 8) (rd rs1 rs2 rs3 : Reg) :
    rs3Field (encodeR op rd rs1 rs2 rs3) = rs3 :=
  field_of_bits fun k hk => by
    rw [getLsbD_encodeR]
    simp [show ¬ 20 + k < 8 by omega, show ¬ 20 + k < 12 by omega, show ¬ 20 + k < 16 by omega,
      show ¬ 20 + k < 20 by omega, show 20 + k < 24 by omega]

@[simp] theorem opField_encodeI (op : BitVec 8) (rd : Reg) (imm16 : BitVec 16) :
    opField (encodeI op rd imm16) = op := by
  apply BitVec.eq_of_getLsbD_eq
  intro k hk
  rw [opField, BitVec.getLsbD_extractLsb', getLsbD_encodeI]
  simp [hk]

@[simp] theorem rdField_encodeI (op : BitVec 8) (rd : Reg) (imm16 : BitVec 16) :
    rdField (encodeI op rd imm16) = rd :=
  field_of_bits fun k hk => by
    rw [getLsbD_encodeI]
    simp [show ¬ 8 + k < 8 by omega, show 8 + k < 12 by omega]

@[simp] theorem imm16Field_encodeI (op : BitVec 8) (rd : Reg) (imm16 : BitVec 16) :
    imm16Field (encodeI op rd imm16) = imm16 := by
  apply BitVec.eq_of_getLsbD_eq
  intro k hk
  rw [imm16Field, BitVec.getLsbD_extractLsb', getLsbD_encodeI]
  simp [hk, show ¬ 16 + k < 8 by omega, show ¬ 16 + k < 12 by omega]

/-! ### The opcode of a selected row (R84, R92) -/

/-- Every row's mask holds the opcode byte, and its match holds the row's opcode there. -/
theorem row_opcode : ∀ row ∈ opcodeTable, opField row.mask = 0xFF#8 ∧ opField row.value = row.op := by
  decide

/-- A word that a row selects has the row's opcode. -/
theorem opField_of_selects {row : Row} {c : Word} (hrow : row ∈ opcodeTable) (h : row.selects c = true) :
    opField c = row.op := by
  obtain ⟨hm, hv⟩ := row_opcode row hrow
  have hs : c &&& row.mask = row.value := by simpa [Row.selects] using h
  rw [← hv, ← hs]
  apply BitVec.eq_of_getLsbD_eq
  intro k hk
  have hmk : row.mask.getLsbD k = true := by
    have h1 := congrArg (fun b => b.getLsbD k) hm
    simp only [opField, BitVec.getLsbD_extractLsb'] at h1
    have h2 : (0xFF#8).getLsbD k = true := by interval_cases k <;> rfl
    rw [h2] at h1
    simpa [hk] using h1
  simp [opField, hk, hmk]

/-- The rows' opcodes are distinct, so the row of a row's opcode is that row. -/
theorem rowOf_op : ∀ row ∈ opcodeTable, rowOf row.op = some row := by
  intro row h
  simp only [opcodeTable, List.cons_append, List.nil_append, List.mem_cons, List.not_mem_nil, or_false] at h
  rcases h with rfl | rfl | rfl | rfl | rfl | rfl | rfl | rfl | rfl | rfl | rfl | rfl | rfl <;> rfl

/-- What the decoder finds is a row of the map with that opcode. -/
theorem rowOf_some {op : BitVec 8} {row : Row} (h : rowOf op = some row) : row ∈ opcodeTable ∧ row.op = op := by
  unfold rowOf at h
  exact ⟨List.mem_of_find?_eq_some h, by simpa using List.find?_some h⟩

/-- Decoding a word that a row selects (R92). -/
theorem decode_of_selects {row : Row} {c : Word} (hrow : row ∈ opcodeTable) (h : row.selects c = true) :
    decode c = .ok (row.build c) := by
  unfold decode
  rw [opField_of_selects hrow h, rowOf_op row hrow]
  simp [h]

/-- A word that decodes is selected by the row that it decodes through. -/
theorem selects_of_decode {c : Word} {i : Instr} (h : decode c = .ok i) :
    ∃ row ∈ opcodeTable, row.selects c = true ∧ i = row.build c := by
  unfold decode at h
  split at h
  · exact absurd h (by simp)
  · rename_i row hrow
    split at h
    · rename_i hs
      exact ⟨row, (rowOf_some hrow).1, hs, (Except.ok.inj h).symm⟩
    · exact absurd h (by simp)

end Sys2Proof
end

