-- ==== Sys2Proof/Laws/Exec.lean ====
section
/-! SUPPORT. Exec(c, x) of 30_encoding.md R92 as one function of the register values and W, and what every command
has in common. -/

namespace Sys2Proof.Machine

/-- What `Exec(c, x)` returns for a command, from the register values and W alone. -/
def resultOf (i : Instr) (x : Reg → Nat) (W : Nat) : Result :=
  match i with
  | .nop => .ok [] none
  | .mov rd rs1 => okOne rd (x rs1)
  | .seti rd imm16 => okOne rd (zextImm imm16)
  | .gcd rd rs1 rs2 => okOne rd (Nat.gcd (x rs1) (x rs2))
  | .gcdstep rd rs1 rs2 =>
    if gcdstepOperandsOk rd rs1 rs2 then
      if x rs2 = 0 then .ok [] (some { z := true, xs := false, ys := false })
      else .ok [(rs1, x rs2), (rs2, x rs1 % x rs2), (rd, x rs1 / x rs2)] (some (zeroFlags (x rs1 % x rs2)))
    else .err .operand
  | .egcd rd rs1 rs2 =>
    if egcdOperandsOk rd then
      .ok [(rd, (eg (x rs1) (x rs2)).1), (regPlus rd 1, tc W (eg (x rs1) (x rs2)).2.1),
          (regPlus rd 2, tc W (eg (x rs1) (x rs2)).2.2)]
        (some (egcdFlags (eg (x rs1) (x rs2)).1 (eg (x rs1) (x rs2)).2.1 (eg (x rs1) (x rs2)).2.2))
    else .err .operand
  | .modinv rd rs1 rs3 =>
    if x rs3 = 0 then .err .modzero
    else if Nat.gcd (x rs1) (x rs3) ≠ 1 then .err .noinv
    else okOne rd (modInverse (x rs1) (x rs3))
  | .modmul rd rs1 rs2 rs3 =>
    if x rs3 = 0 then .err .modzero else okOne rd (x rs1 * x rs2 % x rs3)
  | .modexp rd rs1 rs2 rs3 =>
    if x rs3 = 0 then .err .modzero else okOne rd (modPow (x rs1) (x rs2) (x rs3))
  | .montmul rd rs1 rs2 rs3 =>
    montResult rd (x rs3) [x rs1, x rs2] (x rs1 * x rs2 * radixInverse W (x rs3) % x rs3)
  | .tomont rd rs1 rs3 => montResult rd (x rs3) [x rs1] (x rs1 * 2 ^ W % x rs3)
  | .frommont rd rs1 rs3 => montResult rd (x rs3) [x rs1] (x rs1 * radixInverse W (x rs3) % x rs3)
  | .montr2 rd rs3 => montResult rd (x rs3) [] (2 ^ (2 * W) % x rs3)

/-- Every command is the completion of its result. -/
theorem exec_eq_complete (i : Instr) (s : State) : exec i s = complete (resultOf i s.x s.W) s := by
  cases i <;> rfl

/-- Every command answers a next state. -/
theorem exec_next (i : Instr) (s : State) : ∃ t, exec i s = .next t := by
  rw [exec_eq_complete]
  rcases complete_cases (resultOf i s.x s.W) s with ⟨_, _, _, h⟩ | ⟨_, _, h⟩ <;> exact ⟨_, h⟩

/-- What a command can do: a successful completion with the writes and flags of its result, or an error completion. -/
theorem exec_cases {i : Instr} {s t : State} (h : exec i s = .next t) :
    (∃ l f, resultOf i s.x s.W = .ok l f ∧ t = s.completeOk l f) ∨
      (∃ e, resultOf i s.x s.W = .err e ∧ t = s.completeError e) := by
  rw [exec_eq_complete] at h
  rcases complete_cases (resultOf i s.x s.W) s with ⟨l, f, hr, hc⟩ | ⟨e, hr, hc⟩
  · exact .inl ⟨l, f, hr, by rw [hc] at h; exact (Host.Outcome.next.inj h).symm⟩
  · exact .inr ⟨e, hr, by rw [hc] at h; exact (Host.Outcome.next.inj h).symm⟩

/-- What no command writes is unchanged. -/
theorem exec_commandFrame {i : Instr} {s t : State} (h : exec i s = .next t) : CommandFrame s t := by
  rcases exec_cases h with ⟨l, f, _, rfl⟩ | ⟨e, _, rfl⟩
  · exact completeOk_commandFrame s l f
  · exact (completeError_failed s e).frame

/-- A completion leaves the engine idle. -/
theorem exec_phase {i : Instr} {s t : State} (h : exec i s = .next t) : t.phase = .idle := by
  rcases exec_cases h with ⟨l, f, _, rfl⟩ | ⟨e, _, rfl⟩ <;> simp

/-- A completion sets DONE. -/
theorem exec_done {i : Instr} {s t : State} (h : exec i s = .next t) : t.status.done = true := by
  rcases exec_cases h with ⟨l, f, _, rfl⟩ | ⟨e, _, rfl⟩ <;> simp

/-! ### Montgomery results -/

theorem montResult_of_ok {n : Nat} {ds : List Nat} (hodd : n % 2 = 1) (hds : ∀ d ∈ ds, d < n) (rd : Reg) (v : Nat) :
    montResult rd n ds v = okOne rd v := by
  unfold montResult
  rw [(montCheck_eq_none_iff n ds).mpr ⟨hodd, hds⟩]

/-- A Montgomery command that passes R171's checks writes its value. -/
theorem complete_montResult {n : Nat} {ds : List Nat} (hodd : n % 2 = 1) (hds : ∀ d ∈ ds, d < n) (s : State)
    (rd : Reg) (v : Nat) : ∃ t, complete (montResult rd n ds v) s = .next t ∧
      t.x rd = v ∧ RegsKeptExcept s t [rd] ∧ Succeeded s t (v == 0) false false := by
  rw [montResult_of_ok hodd hds]
  exact complete_okOne s rd v

theorem montResult_ok_lt {rd : Reg} {n v : Nat} {ds : List Nat} {l : List (Reg × Nat)} {f : Option Flags}
    (h : montResult rd n ds v = .ok l f) : n % 2 = 1 ∧ l = [(rd, v)] ∧ f = some (zeroFlags v) := by
  unfold montResult at h
  split at h
  · exact absurd h (by simp)
  · rename_i hc
    have := (montCheck_eq_none_iff n ds).mp hc
    unfold okOne at h
    obtain ⟨h1, h2⟩ := Result.ok.inj h
    exact ⟨this.1, h1.symm, h2.symm⟩

/-! ### What the results are in range of -/

/-- Every value written is below 2^W when the registers are (00_scope.md R14: "v is always in [0, 2^W) where a rule
writes it"). -/
theorem resultOf_writes_lt {i : Instr} {x : Reg → Nat} {W : Nat} (hW : 16 ≤ W) (hx : ∀ r, x r < 2 ^ W)
    {l : List (Reg × Nat)} {f : Option Flags} (h : resultOf i x W = .ok l f) : ∀ w ∈ l, w.2 < 2 ^ W := by
  have hmod : ∀ v r, 0 < x r → v % x r < 2 ^ W := fun v r hp => (Nat.mod_lt v hp).trans (hx r)
  have hone : ∀ (rd : Reg) (v : Nat), v < 2 ^ W → okOne rd v = .ok l f → ∀ w ∈ l, w.2 < 2 ^ W := by
    intro rd v hv he
    obtain ⟨rfl, -⟩ := Result.ok.inj he
    simpa using hv
  have hmont : ∀ (rd r : Reg) (v : Nat) (ds : List Nat), montResult rd (x r) ds (v % x r) = .ok l f →
      ∀ w ∈ l, w.2 < 2 ^ W := by
    intro rd r v ds he
    obtain ⟨hodd, rfl, -⟩ := montResult_ok_lt he
    simpa using hmod v r (by omega)
  cases i with
  | nop => obtain ⟨rfl, -⟩ := Result.ok.inj h; simp
  | mov rd rs1 => exact hone _ _ (hx rs1) h
  | seti rd imm16 =>
    refine hone _ _ ?_ h
    exact imm16.isLt.trans_le (Nat.pow_le_pow_right (by omega) hW)
  | gcd rd rs1 rs2 =>
    refine hone _ _ ?_ h
    rcases Nat.eq_zero_or_pos (x rs1) with h0 | h0
    · rw [h0, Nat.gcd_zero_left]; exact hx rs2
    · exact (Nat.gcd_le_left _ h0).trans_lt (hx rs1)
  | gcdstep rd rs1 rs2 =>
    simp only [resultOf] at h
    split at h
    · split at h
      · obtain ⟨rfl, -⟩ := Result.ok.inj h; simp
      · rename_i h0
        obtain ⟨rfl, -⟩ := Result.ok.inj h
        simp only [List.mem_cons, List.not_mem_nil, or_false, forall_eq_or_imp, forall_eq]
        exact ⟨hx rs2, hmod _ _ (by omega), (Nat.div_le_self _ _).trans_lt (hx rs1)⟩
    · exact absurd h (by simp)
  | egcd rd rs1 rs2 =>
    simp only [resultOf] at h
    split at h
    · obtain ⟨rfl, -⟩ := Result.ok.inj h
      simp only [List.mem_cons, List.not_mem_nil, or_false, forall_eq_or_imp, forall_eq]
      refine ⟨?_, tc_lt W _, tc_lt W _⟩
      rw [eg_fst]
      rcases Nat.eq_zero_or_pos (x rs1) with h0 | h0
      · rw [h0, Nat.gcd_zero_left]; exact hx rs2
      · exact (Nat.gcd_le_left _ h0).trans_lt (hx rs1)
    · exact absurd h (by simp)
  | modinv rd rs1 rs3 =>
    simp only [resultOf] at h
    split at h
    · exact absurd h (by simp)
    · split at h
      · exact absurd h (by simp)
      · exact hone _ _ ((modInverse_lt (by omega) _).trans (hx rs3)) h
  | modmul rd rs1 rs2 rs3 =>
    simp only [resultOf] at h
    split at h
    · exact absurd h (by simp)
    · exact hone _ _ (hmod _ _ (by omega)) h
  | modexp rd rs1 rs2 rs3 =>
    simp only [resultOf] at h
    split at h
    · exact absurd h (by simp)
    · rw [modPow_eq (by omega)] at h
      exact hone _ _ (hmod _ _ (by omega)) h
  | montmul rd rs1 rs2 rs3 => exact hmont _ _ _ _ h
  | tomont rd rs1 rs3 => exact hmont _ _ _ _ h
  | frommont rd rs1 rs3 => exact hmont _ _ _ _ h
  | montr2 rd rs3 => exact hmont _ _ _ _ h

/-- The flags of a result: XS and YS are never both 1, and both are 0 when Z = 1 (10_state.md R33). -/
theorem resultOf_signs {i : Instr} {x : Reg → Nat} {W : Nat} {l : List (Reg × Nat)} {f : Flags}
    (h : resultOf i x W = .ok l (some f)) :
    (f.xs = true → f.ys = false) ∧ (f.z = true → f.xs = false ∧ f.ys = false) := by
  have hone : ∀ (rd : Reg) (v : Nat), okOne rd v = .ok l (some f) → f.xs = false ∧ f.ys = false := by
    intro rd v he
    obtain ⟨-, h2⟩ := Result.ok.inj he
    cases Option.some.inj h2
    exact ⟨rfl, rfl⟩
  have hmont : ∀ (rd : Reg) (n v : Nat) (ds : List Nat), montResult rd n ds v = .ok l (some f) →
      f.xs = false ∧ f.ys = false := by
    intro rd n v ds he
    obtain ⟨-, -, h2⟩ := montResult_ok_lt he
    cases Option.some.inj h2
    exact ⟨rfl, rfl⟩
  have hdone : f.xs = false ∧ f.ys = false →
      (f.xs = true → f.ys = false) ∧ (f.z = true → f.xs = false ∧ f.ys = false) := by
    rintro ⟨h1, h2⟩
    simp [h1, h2]
  cases i with
  | nop => exact absurd (Result.ok.inj h).2 (by simp)
  | mov rd rs1 => exact hdone (hone _ _ h)
  | seti rd imm16 => exact hdone (hone _ _ h)
  | gcd rd rs1 rs2 => exact hdone (hone _ _ h)
  | gcdstep rd rs1 rs2 =>
    simp only [resultOf] at h
    split at h
    · split at h
      · cases Option.some.inj (Result.ok.inj h).2; simp
      · cases Option.some.inj (Result.ok.inj h).2; simp [zeroFlags]
    · exact absurd h (by simp)
  | egcd rd rs1 rs2 =>
    simp only [resultOf] at h
    split at h
    · obtain ⟨h1, h2⟩ := eg_signs (x rs1) (x rs2)
      cases Option.some.inj (Result.ok.inj h).2
      simp only [egcdFlags, decide_eq_true_eq, decide_eq_false_iff_not, beq_iff_eq]
      exact ⟨h1, h2⟩
    · exact absurd h (by simp)
  | modinv rd rs1 rs3 =>
    simp only [resultOf] at h
    split at h
    · exact absurd h (by simp)
    · split at h
      · exact absurd h (by simp)
      · exact hdone (hone _ _ h)
  | modmul rd rs1 rs2 rs3 =>
    simp only [resultOf] at h
    split at h
    · exact absurd h (by simp)
    · exact hdone (hone _ _ h)
  | modexp rd rs1 rs2 rs3 =>
    simp only [resultOf] at h
    split at h
    · exact absurd h (by simp)
    · exact hdone (hone _ _ h)
  | montmul rd rs1 rs2 rs3 => exact hdone (hmont _ _ _ _ h)
  | tomont rd rs1 rs3 => exact hdone (hmont _ _ _ _ h)
  | frommont rd rs1 rs3 => exact hdone (hmont _ _ _ _ h)
  | montr2 rd rs3 => exact hdone (hmont _ _ _ _ h)

/-- Registers below 2^W stay so through a list of writes below 2^W. -/
theorem x_writeAll_lt {W : Nat} : ∀ (l : List (Reg × Nat)) (s : State), (∀ r, s.x r < 2 ^ W) →
    (∀ w ∈ l, w.2 < 2 ^ W) → ∀ r, (s.writeAll l).x r < 2 ^ W := by
  intro l
  induction l with
  | nil => intro s hs _ r; exact hs r
  | cons w l ih =>
    intro s hs hw r
    refine ih _ (fun r' => ?_) (fun w' hw' => hw w' (List.mem_cons_of_mem _ hw')) r
    rw [x_setX]
    split
    · exact hw w (List.mem_cons_self)
    · exact hs r'

end Sys2Proof.Machine
end

