-- ==== Sys2Proof/Laws/PerInstr.lean ====
section
/-! SUPPORT. The family EncodesItsRow: the word of every command is selected by a row of the opcode map with the
command's opcode (30_encoding.md R83, R84). -/

namespace Sys2Proof.Laws.EncodesItsRow

/-- Some row of the opcode map selects the command's word and gives the command back from it. -/
def Statement (i : Instr) : Prop := ∃ row ∈ opcodeTable, row.selects (encode i) = true ∧ row.build (encode i) = i

/-- A format R word whose fixed bits are those of a row's match is selected by the row. -/
theorem selects_encodeR {row : Row} {op : BitVec 8} {rd rs1 rs2 rs3 : Reg}
    (h : ∀ k, k < 32 → ((encodeR op rd rs1 rs2 rs3).getLsbD k && row.mask.getLsbD k) = row.value.getLsbD k) :
    row.selects (encodeR op rd rs1 rs2 rs3) = true := by
  rw [Row.selects, beq_iff_eq]
  apply BitVec.eq_of_getLsbD_eq
  intro k hk
  rw [BitVec.getLsbD_and]
  exact h k hk

theorem nop : Statement .nop := ⟨opcodeTable[0], by simp [opcodeTable], by decide, rfl⟩

theorem mov (rd rs1 : Reg) : Statement (.mov rd rs1) := by
  refine ⟨opcodeTable[1], by simp [opcodeTable], selects_encodeR fun k hk => ?_, by simp [opcodeTable, encode]⟩
  rw [getLsbD_encodeR]
  interval_cases k <;> simp [opcodeTable]

theorem seti (rd : Reg) (imm16 : BitVec 16) : Statement (.seti rd imm16) := by
  refine ⟨opcodeTable[2], by simp [opcodeTable], ?_, by simp [opcodeTable, encode]⟩
  rw [Row.selects, beq_iff_eq]
  apply BitVec.eq_of_getLsbD_eq
  intro k hk
  rw [BitVec.getLsbD_and, encode, getLsbD_encodeI]
  interval_cases k <;> simp [opcodeTable]

theorem gcd (rd rs1 rs2 : Reg) : Statement (.gcd rd rs1 rs2) := by
  refine ⟨opcodeTable[3], by simp [opcodeTable], selects_encodeR fun k hk => ?_, by simp [opcodeTable, encode]⟩
  rw [getLsbD_encodeR]
  interval_cases k <;> simp [opcodeTable]

theorem gcdstep (rd rs1 rs2 : Reg) : Statement (.gcdstep rd rs1 rs2) := by
  refine ⟨opcodeTable[4], by simp [opcodeTable], selects_encodeR fun k hk => ?_, by simp [opcodeTable, encode]⟩
  rw [getLsbD_encodeR]
  interval_cases k <;> simp [opcodeTable]

theorem egcd (rd rs1 rs2 : Reg) : Statement (.egcd rd rs1 rs2) := by
  refine ⟨opcodeTable[5], by simp [opcodeTable], selects_encodeR fun k hk => ?_, by simp [opcodeTable, encode]⟩
  rw [getLsbD_encodeR]
  interval_cases k <;> simp [opcodeTable]

theorem modinv (rd rs1 rs3 : Reg) : Statement (.modinv rd rs1 rs3) := by
  refine ⟨opcodeTable[6], by simp [opcodeTable], selects_encodeR fun k hk => ?_, by simp [opcodeTable, encode]⟩
  rw [getLsbD_encodeR]
  interval_cases k <;> simp [opcodeTable]

theorem modmul (rd rs1 rs2 rs3 : Reg) : Statement (.modmul rd rs1 rs2 rs3) := by
  refine ⟨opcodeTable[7], by simp [opcodeTable], selects_encodeR fun k hk => ?_, by simp [opcodeTable, encode]⟩
  rw [getLsbD_encodeR]
  interval_cases k <;> simp [opcodeTable]

theorem modexp (rd rs1 rs2 rs3 : Reg) : Statement (.modexp rd rs1 rs2 rs3) := by
  refine ⟨opcodeTable[8], by simp [opcodeTable], selects_encodeR fun k hk => ?_, by simp [opcodeTable, encode]⟩
  rw [getLsbD_encodeR]
  interval_cases k <;> simp [opcodeTable]

theorem montmul (rd rs1 rs2 rs3 : Reg) : Statement (.montmul rd rs1 rs2 rs3) := by
  refine ⟨opcodeTable[9], by simp [opcodeTable], selects_encodeR fun k hk => ?_, by simp [opcodeTable, encode]⟩
  rw [getLsbD_encodeR]
  interval_cases k <;> simp [opcodeTable]

theorem tomont (rd rs1 rs3 : Reg) : Statement (.tomont rd rs1 rs3) := by
  refine ⟨opcodeTable[10], by simp [opcodeTable], selects_encodeR fun k hk => ?_, by simp [opcodeTable, encode]⟩
  rw [getLsbD_encodeR]
  interval_cases k <;> simp [opcodeTable]

theorem frommont (rd rs1 rs3 : Reg) : Statement (.frommont rd rs1 rs3) := by
  refine ⟨opcodeTable[11], by simp [opcodeTable], selects_encodeR fun k hk => ?_, by simp [opcodeTable, encode]⟩
  rw [getLsbD_encodeR]
  interval_cases k <;> simp [opcodeTable]

theorem montr2 (rd rs3 : Reg) : Statement (.montr2 rd rs3) := by
  refine ⟨opcodeTable[12], by simp [opcodeTable], selects_encodeR fun k hk => ?_, by simp [opcodeTable, encode]⟩
  rw [getLsbD_encodeR]
  interval_cases k <;> simp [opcodeTable]

end Sys2Proof.Laws.EncodesItsRow
end

