-- ==== Sys2Proof/Laws/Step.lean ====
section
/-! SUPPORT. Everything that one step can do. Each invariant of the machine follows from `step_cases`. -/

namespace Sys2Proof.Machine

/-- The state in which an event is performed: its place in the order is used up. -/
def State.advance (s : State) : State := { s with pending := s.pending.tail }

@[simp] theorem advance_params (s : State) : s.advance.params = s.params := rfl
@[simp] theorem advance_regs (s : State) : s.advance.regs = s.regs := rfl
@[simp] theorem advance_x (s : State) (i : Reg) : s.advance.x i = s.x i := rfl
@[simp] theorem advance_cmd (s : State) : s.advance.cmd = s.cmd := rfl
@[simp] theorem advance_status (s : State) : s.advance.status = s.status := rfl
@[simp] theorem advance_ie (s : State) : s.advance.ie = s.ie := rfl
@[simp] theorem advance_phase (s : State) : s.advance.phase = s.phase := rfl
@[simp] theorem advance_resetInput (s : State) : s.advance.resetInput = s.resetInput := rfl
@[simp] theorem advance_pending (s : State) : s.advance.pending = s.pending.tail := rfl
@[simp] theorem advance_replies (s : State) : s.advance.replies = s.replies := rfl
@[simp] theorem advance_draws (s : State) : s.advance.draws = s.draws := rfl
@[simp] theorem advance_busy (s : State) : s.advance.busy = s.busy := rfl

theorem advance_of_nil {s : State} (h : s.pending = []) : s.advance = s := by
  unfold State.advance
  rw [h, List.tail_nil, ← h]

theorem advance_of_cons {s : State} {e : Event} {rest : List Event} (h : s.pending = e :: rest) :
    s.advance = { s with pending := rest } := by
  unfold State.advance
  rw [h, List.tail_cons]

/-! ### One step, by the event at the head of the order -/

theorem step_of_nil {s : State} (h : s.pending = []) : step s = engineTurn s.advance := by
  rw [advance_of_nil h]
  unfold step
  rw [h]

theorem step_of_cons {s : State} {e : Event} {rest : List Event} (h : s.pending = e :: rest) :
    step s = perform e s.advance := by
  rw [advance_of_cons h]
  unfold step
  rw [h]

theorem step_of_bus {s : State} {a : Access} {rest : List Event} (h : s.pending = .bus a :: rest) :
    step s = .next (s.advance.serve a).held := by
  rw [step_of_cons h]
  rfl

theorem step_of_engine {s : State} {rest : List Event} (h : s.pending = .engine :: rest) :
    step s = engineTurn s.advance := by
  rw [step_of_cons h]
  rfl

theorem step_of_resetInput {s : State} {b : Bool} {rest : List Event} (h : s.pending = .resetInput b :: rest) :
    step s = .next { s.advance with resetInput := b }.engineReset := by
  rw [step_of_cons h]
  rfl

/-- A step that performs a host's 32-bit write in the window. -/
theorem step_hostWrite {s : State} {off : Nat} {v : Word} {rest : List Event} {t : Target}
    (hr : s.resetInput = false) (h : s.pending = hostWrite s.params off v :: rest) (hoff : off < 0x10000)
    (h4 : off % 4 = 0) (ht : targetOf s.params off = some t) :
    step s = .next ((writeTarget t v s.advance).answer (.written off)) := by
  rw [step_of_bus h]
  have hs := serve_write (s := s.advance) hoff h4 (by simpa using ht) v
  simp only [advance_params] at hs
  rw [hs, held_of_released (by simpa using hr)]

/-- A step that performs a host's 32-bit read in the window. -/
theorem step_hostRead {s : State} {off : Nat} {rest : List Event} {t : Target} (hr : s.resetInput = false)
    (h : s.pending = hostRead s.params off :: rest) (hoff : off < 0x10000) (h4 : off % 4 = 0)
    (ht : targetOf s.params off = some t) :
    step s = .next ((readTarget t s.advance).2.answer (.data off (readTarget t s.advance).1)) := by
  rw [step_of_bus h]
  have hs := serve_read (s := s.advance) hoff h4 (by simpa using ht)
  simp only [advance_params] at hs
  rw [hs, held_of_released (by simpa using hr)]

/-! ### The turn of the engine -/

theorem engineTurn_held {s : State} (h : s.resetInput = true) : engineTurn s = .next s.engineReset := by
  unfold engineTurn
  rw [if_pos h]

theorem engineTurn_idle {s : State} (h : s.resetInput = false) (hp : s.phase = .idle) : engineTurn s = .next s := by
  unfold engineTurn
  rw [if_neg (by simp [h]), hp]

theorem engineTurn_busy {s : State} {c : Word} (h : s.resetInput = false) (hp : s.phase = .busy c) :
    engineTurn s = runCommand c s := by
  unfold engineTurn
  rw [if_neg (by simp [h]), hp]

theorem runCommand_ok {c : Word} {i : Instr} (h : decode c = .ok i) (s : State) : runCommand c s = exec i s := by
  unfold runCommand
  rw [h]

theorem runCommand_error {c : Word} {e : Illegal} (h : decode c = .error e) (s : State) :
    runCommand c s = .next (s.completeError .illegal) := by
  unfold runCommand
  rw [h]

/-- Everything that a turn of the engine can do. -/
theorem engineTurn_cases (s : State) :
    (s.resetInput = true ∧ engineTurn s = .next s.engineReset) ∨
    (s.resetInput = false ∧ s.phase = .idle ∧ engineTurn s = .next s) ∨
    (∃ c i, s.resetInput = false ∧ s.phase = .busy c ∧ decode c = .ok i ∧ engineTurn s = exec i s) ∨
    (∃ c e, s.resetInput = false ∧ s.phase = .busy c ∧ decode c = .error e ∧
      engineTurn s = .next (s.completeError .illegal)) := by
  cases hr : s.resetInput with
  | true => exact .inl ⟨rfl, engineTurn_held hr⟩
  | false =>
    right
    cases hp : s.phase with
    | idle => exact .inl ⟨rfl, rfl, engineTurn_idle hr hp⟩
    | busy c =>
      right
      cases hd : decode c with
      | ok i => exact .inl ⟨c, i, rfl, rfl, hd, by rw [engineTurn_busy hr hp, runCommand_ok hd]⟩
      | error e => exact .inr ⟨c, e, rfl, rfl, hd, by rw [engineTurn_busy hr hp, runCommand_error hd]⟩

/-! ### One step -/

/-- The head of the order gives the engine its turn: there is none, or it is the engine's. -/
def State.engineNext (s : State) : Prop := s.pending = [] ∨ ∃ rest, s.pending = .engine :: rest

theorem step_of_engineNext {s : State} (h : s.engineNext) : step s = engineTurn s.advance := by
  rcases h with h | ⟨rest, h⟩
  · exact step_of_nil h
  · exact step_of_engine h

/-- Everything that one step can do. -/
theorem step_cases {s t : State} (h : step s = .next t) :
    (∃ b rest, s.pending = .resetInput b :: rest ∧ t = { s.advance with resetInput := b }.engineReset) ∨
    (∃ a rest, s.pending = .bus a :: rest ∧ t = (s.advance.serve a).held) ∨
    (s.engineNext ∧ s.resetInput = true ∧ t = s.advance.engineReset) ∨
    (s.engineNext ∧ s.resetInput = false ∧ s.phase = .idle ∧ t = s.advance) ∨
    (∃ c i, s.engineNext ∧ s.resetInput = false ∧ s.phase = .busy c ∧ decode c = .ok i ∧
      exec i s.advance = .next t) ∨
    (∃ c e, s.engineNext ∧ s.resetInput = false ∧ s.phase = .busy c ∧ decode c = .error e ∧
      t = s.advance.completeError .illegal) := by
  have hturn : s.engineNext → engineTurn s.advance = .next t →
      (s.engineNext ∧ s.resetInput = true ∧ t = s.advance.engineReset) ∨
      (s.engineNext ∧ s.resetInput = false ∧ s.phase = .idle ∧ t = s.advance) ∨
      (∃ c i, s.engineNext ∧ s.resetInput = false ∧ s.phase = .busy c ∧ decode c = .ok i ∧
        exec i s.advance = .next t) ∨
      (∃ c e, s.engineNext ∧ s.resetInput = false ∧ s.phase = .busy c ∧ decode c = .error e ∧
        t = s.advance.completeError .illegal) := by
    intro hn ht
    rcases engineTurn_cases s.advance with ⟨hr, he⟩ | ⟨hr, hp, he⟩ | ⟨c, i, hr, hp, hd, he⟩ | ⟨c, e, hr, hp, hd, he⟩
    · exact .inl ⟨hn, hr, (Host.Outcome.next.inj (he.symm.trans ht)).symm⟩
    · exact .inr (.inl ⟨hn, hr, hp, (Host.Outcome.next.inj (he.symm.trans ht)).symm⟩)
    · exact .inr (.inr (.inl ⟨c, i, hn, hr, hp, hd, he.symm.trans ht⟩))
    · exact .inr (.inr (.inr ⟨c, e, hn, hr, hp, hd, (Host.Outcome.next.inj (he.symm.trans ht)).symm⟩))
  cases hq : s.pending with
  | nil =>
    have hn : s.engineNext := .inl hq
    rw [step_of_engineNext hn] at h
    exact .inr (.inr (hturn hn h))
  | cons e rest =>
    cases e with
    | bus a =>
      rw [step_of_bus hq] at h
      exact .inr (.inl ⟨a, rest, rfl, (Host.Outcome.next.inj h).symm⟩)
    | engine =>
      have hn : s.engineNext := .inr ⟨rest, hq⟩
      rw [step_of_engineNext hn] at h
      exact .inr (.inr (hturn hn h))
    | resetInput b =>
      rw [step_of_resetInput hq] at h
      exact .inl ⟨b, rest, rfl, (Host.Outcome.next.inj h).symm⟩

/-! ### Several steps -/

/-- A run of k + 1 steps whose first step answers t is a run of k steps from t. -/
theorem run_succ {s t : State} (k : Nat) (h : step s = .next t) :
    Host.Core.run Sys2Proof.core (k + 1) s = Host.Core.run Sys2Proof.core k t := by
  have h' : Sys2Proof.core.step s = .next t := h
  simp only [Host.Core.run, h']

/-- A run of k + m steps whose first k steps answer t is a run of m steps from t. -/
theorem run_add {s t : State} (k m : Nat) (h : Host.Core.run Sys2Proof.core k s = .next t) :
    Host.Core.run Sys2Proof.core (k + m) s = Host.Core.run Sys2Proof.core m t := by
  induction k generalizing s with
  | zero =>
    have : s = t := Host.Outcome.next.inj h
    rw [this, Nat.zero_add]
  | succ k ih =>
    cases hs : step s with
    | next u =>
      rw [run_succ k hs] at h
      rw [show k + 1 + m = (k + m) + 1 by omega, run_succ _ hs]
      exact ih h
    | fault r =>
      have h' : Sys2Proof.core.step s = .fault r := hs
      simp [Host.Core.run, h'] at h
    | refused r =>
      have h' : Sys2Proof.core.step s = .refused r := hs
      simp [Host.Core.run, h'] at h

end Sys2Proof.Machine
end

