-- ==== Sys2Proof/Tests/Slice0.lean ====
section
/-! SUPPORT. Small tests, each from the vector of spec/95_test_vectors.md or the rule that it names, and for every
obligation with hypotheses a witness: concrete states and operands that meet all its hypotheses together. -/

namespace Sys2Proof.Tests

open Sys2Proof Sys2Proof.Machine

/-! ## Helpers -/

/-- The reset state of an engine of width 64 * (k + 1). -/
def resetAt (k : Fin 128) : State := { State.reset with params := { State.reset.params with width64 := k } }

/-- The reference width, W = 2112. -/
def ref : State := resetAt 32

/-- The smallest width, W = 64. -/
def w64 : State := resetAt 0

/-- One vector of 95_test_vectors.md: with `start` loaded and word w accepted, one step writes exactly `writes`, leaves
the given STATUS word and keeps w in CMD. -/
def vector (reset : State) (start : List (Reg × Nat)) (w : Word) (writes : List (Reg × Nat)) (status : Word) : Bool :=
  match step ((reset.writeAll start).acceptNow w) with
  | .next t => t.regs == (reset.writeAll (start ++ writes)).regs && statusWord t == status && t.cmd == w
  | .fault _ => false
  | .refused _ => false

/-- One step from s, with the given events pending, leaves a state that meets p. -/
def oneStep (s : State) (events : List Event) (p : State → Bool) : Bool :=
  match step { s with pending := events } with
  | .next t => p t
  | .fault _ => false
  | .refused _ => false

/-- One host read on the reference machine gives this reply and changes no engine state. -/
def reads (off bytes : Nat) (r : Reply) : Bool :=
  oneStep ref [.bus { addr := off, bytes := bytes, op := .read }] (fun t => t == { ref with replies := [r] })

/-- The reference machine with command word c in flight. -/
def inFlight (c : Word) : State := ref.load c

/-- The registers of vectors V-H10, V-H11 and L1-2. -/
def modexpRegs : List (Reg × Nat) := [(0, 497), (1, 4), (2, 13)]

/-! ## Smoke tests of WellFormed (R88) -/

theorem test_gcdstep_rd_rs1_ill_formed : ¬ (Instr.gcdstep 0 0 1).WellFormed := by decide
theorem test_gcdstep_rd_rs2_ill_formed : ¬ (Instr.gcdstep 1 0 1).WellFormed := by decide
theorem test_gcdstep_rs1_rs2_ill_formed : ¬ (Instr.gcdstep 2 1 1).WellFormed := by decide
theorem test_gcdstep_distinct_well_formed : (Instr.gcdstep 2 0 1).WellFormed := by decide
theorem test_egcd_rd14_ill_formed : ¬ (Instr.egcd 14 0 1).WellFormed := by decide
theorem test_egcd_rd13_well_formed : (Instr.egcd 13 0 1).WellFormed := by decide

/-! ## Decoding: words from R81, R82 and R84, bit 31 first -/

theorem test_decode_nop : decode 0b00000000000000000000000000000000#32 = .ok .nop := by decide
theorem test_decode_mov : decode 0b00000000000000000000010100000001#32 = .ok (.mov 5 0) := by decide
theorem test_decode_seti : decode 0b00001100101000010000010000000010#32 = .ok (.seti 4 3233) := by decide
theorem test_decode_gcd : decode 0b00000000000000010000001000010000#32 = .ok (.gcd 2 0 1) := by decide
theorem test_decode_gcdstep : decode 0b00000000000000010000001000010001#32 = .ok (.gcdstep 2 0 1) := by decide
theorem test_decode_egcd : decode 0b00000000000000010000010000010010#32 = .ok (.egcd 4 0 1) := by decide
theorem test_decode_modinv : decode 0b00000000001000000001001100010011#32 = .ok (.modinv 3 1 2) := by decide
theorem test_decode_modmul : decode 0b00000000011110011000000000100000#32 = .ok (.modmul 0 8 9 7) := by decide
theorem test_decode_modexp : decode 0b00000000000000100001001100100001#32 = .ok (.modexp 3 1 2 0) := by decide
theorem test_decode_montmul : decode 0b00000000000000110101010100110000#32 = .ok (.montmul 5 5 3 0) := by decide
theorem test_decode_tomont : decode 0b00000000001100000001000000110001#32 = .ok (.tomont 0 1 3) := by decide
theorem test_decode_frommont : decode 0b00000000001100000001000000110010#32 = .ok (.frommont 0 1 3) := by decide
theorem test_decode_montr2 : decode 0b00000000001100000000000000110011#32 = .ok (.montr2 0 3) := by decide

/-- V-E4 to V-E8: reserved opcodes. -/
theorem test_decode_reserved :
    [0x00000003#32, 0x00000014#32, 0x00000022#32, 0x00000034#32, 0x000000FF#32].all
      (fun w => decode w == .error (.reservedOpcode (w.extractLsb' 0 8))) = true := by decide

/-- V-E2, V-E3, V-E9 to V-E19: a must-be-zero bit set. -/
theorem test_decode_must_be_zero :
    [0x00000100#32, 0x80000000#32, 0x00010501#32, 0x0CA11402#32, 0x00110210#32, 0x00110412#32, 0x00311213#32,
      0x01021321#32, 0x00311031#32, 0x00301033#32, 0x00110011#32, 0x00210E12#32, 0x00000F00#32].all
      (fun w => decode w == .error (.mustBeZero w)) = true := by decide

theorem test_table_word : decodeTableWord 32 0x00201313 = some (.modinv 3 1 2) := by decide
theorem test_table_word_of_byte : decodeTableWord 8 0x21 = some (.modexp 0 0 0 0) := by decide
theorem test_table_word_reserved : decodeTableWord 32 0x00000003 = none := by decide
theorem test_encode_egcd : encode (.egcd 13 0 1) = 0x00010D12#32 := by decide

/-! ## Assembly (R89, R90) -/

theorem test_asm_montsqr : assemble .montsqr [.v 5, .v 5, .v 0] = some (.montmul 5 5 5 0) := by decide
theorem test_asm_egcd_refused : assemble .egcd [.v 14, .v 0, .v 1] = none := by decide
theorem test_asm_immediate_refused : assemble .seti [.v 0, .imm 65536] = none := by decide
theorem test_asm_register_refused : assemble .mov [.v 16, .v 0] = none := by decide

/-- P1's `MODMUL v2, v10, v11, v7`. -/
theorem test_asm_line :
    assembleLine
      ['M', 'O', 'D', 'M', 'U', 'L', ' ', 'v', '2', ',', ' ', 'v', '1', '0', ',', ' ', 'v', '1', '1', ',', ' ', 'v', '7'] =
      some (.modmul 2 10 11 7) := by decide
theorem test_asm_line_hex :
    assembleLine ['S', 'E', 'T', 'I', ' ', 'v', '4', ',', ' ', '0', 'x', 'C', 'A', '1'] =
      some (.seti 4 3233) := by decide
theorem test_asm_line_lower_case_refused : assembleLine ['n', 'o', 'p'] = none := by decide

/-! ## Reset (R35) and the command of the next fetch -/

theorem test_reset_is_reference : State.reset = ref := by decide

theorem test_withFetchWord_runs_seti :
    (match step (State.reset.withFetchWord 32 0x0CA10402) with
      | .next t => t.x 4 == 3233 && t.cmd == 0x0CA10402#32
      | .fault _ => false
      | .refused _ => false) = true := by decide

/-! ## One command each, two vectors at most -/

/-- V-U2: NOP keeps Z. -/
theorem test_nop_keeps_z :
    vector { ref with status := { Status.reset with z := true } } [] 0x00000000#32 [] 0x00000102#32 = true := by decide

/-- V-U3. -/
theorem test_mov : vector ref [(0, 61)] 0x00000501#32 [(5, 61)] 0x00000002#32 = true := by decide
/-- V-U4. -/
theorem test_mov_zero : vector ref [(5, 9)] 0x00001501#32 [(5, 0)] 0x00000102#32 = true := by decide

/-- V-U7. -/
theorem test_seti_not_sign_extended : vector ref [] 0xFFFF0402#32 [(4, 65535)] 0x00000002#32 = true := by decide
/-- V-U9. -/
theorem test_seti_clears_upper_bits :
    vector ref [(4, 2 ^ 2112 - 1)] 0x00010402#32 [(4, 1)] 0x00000002#32 = true := by decide +kernel

/-- V-G3. -/
theorem test_gcd_zero : vector ref [] 0x00010210#32 [(2, 0)] 0x00000102#32 = true := by decide
/-- V-G6. -/
theorem test_gcd_wide :
    vector ref [(0, 2 ^ 2112 - 1), (1, 2 ^ 2112 - 2)] 0x00010210#32 [(2, 1)] 0x00000002#32 = true := by decide +kernel

/-- V-G7. -/
theorem test_gcdstep : vector ref [(0, 240), (1, 46)] 0x00010211#32 [(0, 46), (1, 10), (2, 5)] 0x00000002#32 = true := by
  decide
/-- V-G9. -/
theorem test_gcdstep_b_zero : vector ref [(0, 2), (2, 9)] 0x00010211#32 [] 0x00000102#32 = true := by decide

/-- V-G18: the group overlaps both operands. -/
theorem test_egcd_overlap :
    vector ref [(0, 240), (1, 46)] 0x00010012#32 [(0, 2), (1, 2 ^ 2112 - 9), (2, 47)] 0x00000202#32 = true := by
  decide +kernel
/-- V-G13. -/
theorem test_egcd_negative_y :
    vector ref [(0, 3120), (1, 17)] 0x00010412#32 [(4, 1), (5, 2), (6, 2 ^ 2112 - 367)] 0x00000402#32 = true := by
  decide +kernel

/-- V-G21. -/
theorem test_modinv_reduces : vector ref [(1, 3137), (3, 3120)] 0x00301213#32 [(2, 2753)] 0x00000002#32 = true := by
  decide +kernel
/-- V-G26: MODZERO wins over NOINV. -/
theorem test_modinv_zero_first : vector ref [(1, 6)] 0x00301213#32 [] 0x00000036#32 = true := by decide

/-- V-M7. -/
theorem test_modmul_wide :
    vector ref [(1, 2 ^ 2112 - 1), (2, 2 ^ 2112 - 1), (3, 2 ^ 2112 - 2)] 0x00321020#32 [(0, 1)] 0x00000002#32 = true := by
  decide +kernel
/-- V-M8: every field the same register. -/
theorem test_modmul_same_register : vector ref [(0, 3)] 0x00000020#32 [(0, 0)] 0x00000102#32 = true := by decide

/-- L1-2: 4^13 mod 497. -/
theorem test_modexp : vector ref modexpRegs 0x00021321#32 [(3, 445)] 0x00000002#32 = true := by decide +kernel
/-- V-M11: the modulus 1. -/
theorem test_modexp_modulus_one : vector ref [(1, 4), (3, 1)] 0x00321021#32 [(0, 0)] 0x00000102#32 = true := by
  decide +kernel

/-- V-N1 at W = 2112. -/
theorem test_montmul : vector ref [(1, 4), (2, 13), (3, 497)] 0x00321030#32 [(0, 17)] 0x00000002#32 = true := by
  decide +kernel
/-- V-N15: MODEVEN wins over RANGE. -/
theorem test_montmul_even_first : vector w64 [(1, 500), (2, 1), (3, 496)] 0x00321030#32 [] 0x00000046#32 = true := by
  decide

/-- V-N2 at W = 64. -/
theorem test_tomont : vector w64 [(1, 4), (3, 497)] 0x00301031#32 [(0, 253)] 0x00000002#32 = true := by decide +kernel
/-- V-N2 at W = 2112. -/
theorem test_tomont_reference : vector ref [(1, 4), (3, 497)] 0x00301031#32 [(0, 480)] 0x00000002#32 = true := by
  decide +kernel

/-- V-N3 at W = 64. -/
theorem test_frommont : vector w64 [(1, 4), (3, 497)] 0x00301032#32 [(0, 114)] 0x00000002#32 = true := by decide +kernel
/-- V-N23: A = N. -/
theorem test_frommont_range : vector w64 [(1, 497), (3, 497)] 0x00301032#32 [] 0x00000056#32 = true := by decide

/-- V-N5 at W = 2112. -/
theorem test_montr2 : vector ref [(3, 497)] 0x00300033#32 [(0, 484)] 0x00000002#32 = true := by decide +kernel
/-- V-N18: the modulus 1. -/
theorem test_montr2_modulus_one : vector w64 [(3, 1)] 0x00300033#32 [(0, 0)] 0x00000102#32 = true := by decide +kernel

/-- V-E17: ILLEGAL wins over OPERAND, and no register changes. -/
theorem test_illegal_first : vector ref [(0, 240)] 0x00110011#32 [] 0x00000016#32 = true := by decide
/-- V-H23: Z survives an error completion. -/
theorem test_illegal_keeps_z :
    vector { ref with status := { Status.reset with z := true } } [] 0x00000003#32 [] 0x00000116#32 = true := by decide

/-! ## The register window -/

/-- V-H1. -/
theorem test_read_id : reads 0x0000 4 (.data 0x0000 0x41434531#32) = true := by decide
/-- V-H1. -/
theorem test_read_config : reads 0x0004 4 (.data 0x0004 0x01100840#32) = true := by decide
/-- V-H1: limb 65 of v15. -/
theorem test_read_last_limb : reads 0x4D04 4 (.data 0x4D04 0x00000000#32) = true := by decide +kernel
/-- V-H5: limb 66 of v0. -/
theorem test_read_beyond_last_limb : reads 0x1108 4 (.busError 0x1108) = true := by decide
/-- V-H2. -/
theorem test_read_byte : reads 0x000C 1 (.busError 0x000C) = true := by decide
/-- V-H3. -/
theorem test_read_misaligned : reads 0x0002 4 (.busError 0x0002) = true := by decide
/-- V-H4. -/
theorem test_read_reserved :
    [0x0014, 0x0FFC, 0x5000].all (fun off => reads off 4 (.busError off)) = true := by decide

/-- V-H7: limb 0 is the least significant. -/
theorem test_limb_order :
    oneStep (ref.writeAll [(4, 3233)]) [hostRead ref.params 0x2000]
      (fun t => t.replies == [.data 0x2000 0x00000CA1#32]) = true := by decide

/-- V-H6: the second of its writes. -/
theorem test_write_limb :
    oneStep (ref.writeAll [(0, 3233)]) [hostWrite ref.params 0x1004 1#32] (fun t => t.x 0 == 2 ^ 32 + 3233) = true := by
  decide

/-- V-H9: a CMD write while busy. -/
theorem test_busy_cmd_write :
    oneStep (inFlight 0x00021321#32) [hostWrite ref.params 0x0008 0#32]
      (fun t => t.cmd == 0x00021321#32 && statusWord t == 0x00000009#32) = true := by decide
/-- V-H11: a register-file write while busy. -/
theorem test_busy_register_write :
    oneStep ((ref.writeAll modexpRegs).load 0x00021321#32) [hostWrite ref.params 0x1400 5#32]
      (fun t => t.x 1 == 4 && t.status.hz) = true := by decide
/-- V-H10: a register-file read while busy sets HZ, whatever it reads. -/
theorem test_busy_register_read :
    oneStep (inFlight 0x00021321#32) [hostRead ref.params 0x1C00]
      (fun t => statusWord t == 0x00000009#32 && t.draws == 1) = true := by decide
/-- V-H14: DONE cleared, ERR and ERRCODE kept. -/
theorem test_clear_done :
    oneStep (ref.completeError .noinv) [hostWrite ref.params 0x000C 0x00000002#32]
      (fun t => statusWord t == 0x00000064#32) = true := by decide
/-- V-H16: enabling the interrupt while DONE is pending. -/
theorem test_irq_at_enable :
    oneStep (ref.completeOk [] none) [hostWrite ref.params 0x0010 1#32] (fun t => t.irqOn 0) = true := by decide
/-- V-H18: the soft reset. -/
theorem test_soft_reset :
    oneStep { (ref.writeAll modexpRegs).load 0x00021321#32 with ie := true }
      [hostWrite ref.params 0x0010 0x00000003#32]
      (fun t => t == { ref with replies := [.written 0x0010] }) = true := by decide
/-- V-H20: the reserved bits of CTRL are ignored. -/
theorem test_ctrl_write :
    oneStep ref [hostWrite ref.params 0x0010 0xFFFFFFFD#32] (fun t => ctrlWord t == 0x00000001#32) = true := by decide

/-! ## Witnesses: for each obligation with hypotheses, states and operands that meet them -/

/-- An idle engine of width 64 with these registers and these events to come. -/
def idleWith (regs : List (Reg × Nat)) (events : List Event) : State :=
  { w64.writeAll regs with pending := events }

/-- An engine of width 64 with command word c in flight, these registers and these events to come. -/
def busyWith (c : Word) (regs : List (Reg × Nat)) (events : List Event) : State :=
  { (w64.writeAll regs).load c with pending := events }

theorem witness_EncodeOfDecode : decode 0x00021321#32 = .ok (.modexp 3 1 2 0) := by decide

theorem witness_NoTwoRowsSelectOneWord :
    opcodeTable[(⟨12, by decide⟩ : Fin opcodeTable.length)].selects 0x00000333#32 = true := by decide

theorem witness_RowOrIllegal_selected : ∃ row ∈ opcodeTable, row.selects 0x00000333#32 = true := by decide
theorem witness_RowOrIllegal_reserved : ∀ row ∈ opcodeTable, row.selects 0x00000034#32 = false := by decide
theorem witness_RowOrIllegal_must_be_zero : ∀ row ∈ opcodeTable, row.selects 0x80000000#32 = false := by decide

theorem witness_AssemblyRoundTrip :
    assemble .clr [.v 15] = some (.seti 15 0#16) ∧ assemble .egcd [.v 13, .v 0, .v 1] = some (.egcd 13 0 1) ∧
    (AsmOperand.v 16 ∈ [AsmOperand.v 16, .v 0] ∧ 16 ≤ 16) ∧
    AsmOperand.imm 65536 ∈ [AsmOperand.v 0, .imm 65536] ∧ 65536 ≤ 65536 := by decide

theorem witness_StepRunsDecodedCommand :
    (busyWith 0x00021321#32 [] [.engine]).phase = .busy 0x00021321#32 ∧
    (busyWith 0x00021321#32 [] [.engine]).resetInput = false ∧ decode 0x00021321#32 = .ok (.modexp 3 1 2 0) ∧
    (busyWith 0x00021321#32 [] []).pending = [] ∧ (busyWith 0x00021321#32 [] [.engine]).pending = .engine :: [] := by
  decide

theorem witness_IllegalWordEndsIllegal :
    (busyWith 0x00000003#32 [] [.engine]).phase = .busy 0x00000003#32 ∧
    (busyWith 0x00000003#32 [] [.engine]).resetInput = false ∧
    decode 0x00000003#32 = .error (.reservedOpcode 0x03#8) ∧
    (busyWith 0x00000003#32 [] []).pending = [] ∧ (busyWith 0x00000003#32 [] [.engine]).pending = .engine :: [] := by
  decide

theorem witness_CmdWriteAccepts :
    (idleWith [] [hostWrite w64.params 0x0008 5#32]).resetInput = false ∧
    (idleWith [] [hostWrite w64.params 0x0008 5#32]).pending = hostWrite w64.params 0x0008 5#32 :: [] ∧
    (idleWith [] []).busy = false ∧ (busyWith 0x00021321#32 [] []).busy = true := by decide

theorem witness_FirstErrorIsReported :
    firstError (idleWith [] []) (.gcdstep 0 0 1) = some .operand ∧
    firstError (idleWith [] []) (.egcd 14 0 1) = some .operand ∧
    firstError (idleWith [(1, 500), (3, 0)] []) (.montmul 0 1 2 3) = some .modzero ∧
    firstError (idleWith [(1, 500), (3, 496)] []) (.montmul 0 1 2 3) = some .modeven ∧
    firstError (idleWith [(2, 497), (3, 497)] []) (.montmul 0 1 2 3) = some .range ∧
    firstError (idleWith [(1, 6), (3, 3120)] []) (.modinv 2 1 3) = some .noinv ∧
    firstError (idleWith [(1, 17), (3, 3120)] []) (.modinv 2 1 3) = none ∧
    firstError (idleWith [] []) (.egcd 13 0 1) = none := by decide

/-- A busy state of the invariant, and its step. -/
theorem witness_StepKeepsInv :
    EngineInv (busyWith 0x00010402#32 [(4, 9)] []) ∧ ∃ t, step (busyWith 0x00010402#32 [(4, 9)] []) = .next t := by
  refine ⟨⟨by decide, ?_, by decide, by decide, by decide, by decide⟩, _, rfl⟩
  intro c h
  exact ⟨Phase.busy.inj h, rfl, rfl, rfl⟩

theorem witness_AcceptedCommandCompletes :
    (busyWith 0x00021321#32 [] [hostRead w64.params 0x000C]).phase = .busy 0x00021321#32 ∧
    NoResetAhead (busyWith 0x00021321#32 [] [hostRead w64.params 0x000C]) := by
  refine ⟨rfl, rfl, fun level h => ?_, fun a v h ho => ?_⟩ <;> have h := List.mem_singleton.mp h <;> cases h
  cases ho

theorem witness_BusyKeepsOperands :
    ∃ t, step (busyWith 0x00021321#32 [] [hostRead w64.params 0x1000]) = .next t ∧
      (busyWith 0x00021321#32 [] [hostRead w64.params 0x1000]).phase = .busy 0x00021321#32 ∧
      t.phase = .busy 0x00021321#32 := ⟨_, rfl, rfl, rfl⟩

/-- A register-file read, a register-file write, a CMD write, a write of IE, a byte access and an access outside the
window. -/
def busyAccesses : List Access :=
  [⟨0x1000, 4, .read⟩, ⟨0x1400, 4, .write 5#32⟩, ⟨0x0008, 4, .write 0#32⟩, ⟨0x0010, 4, .write 1#32⟩,
    ⟨0x0010, 1, .write 2#32⟩, ⟨0x10000, 4, .write 2#32⟩]

theorem witness_ResultIgnoresBusyAccesses :
    (busyWith 0x00021321#32 modexpRegs (busyAccesses.map Event.bus ++ [.engine])).phase = .busy 0x00021321#32 ∧
    (busyWith 0x00021321#32 modexpRegs (busyAccesses.map Event.bus ++ [.engine])).resetInput = false ∧
    decode 0x00021321#32 = .ok (.modexp 3 1 2 0) ∧ decode 0x00000003#32 = .error (.reservedOpcode 0x03#8) ∧
    (busyWith 0x00021321#32 modexpRegs (busyAccesses.map Event.bus ++ [.engine])).pending =
      busyAccesses.map Event.bus ++ [.engine] ∧
    ∀ a ∈ busyAccesses, ∀ v, a.op = .write v → v.getLsbD 1 = true → ¬ a.names w64.params .ctrl := by
  refine ⟨rfl, rfl, by decide, by decide, rfl, ?_⟩
  intro a ha v hv h1
  simp only [busyAccesses, List.mem_cons, List.not_mem_nil, or_false] at ha
  rcases ha with rfl | rfl | rfl | rfl | rfl | rfl
  · cases hv
  · cases hv; exact absurd h1 (by decide)
  · cases hv; exact absurd h1 (by decide)
  · cases hv; exact absurd h1 (by decide)
  · rintro ⟨off, _, hb, _⟩; cases hb
  · rintro ⟨off, hw, _⟩; cases hw

/-- A busy engine becomes idle, by the completion of a NOP and by the reset input. -/
theorem witness_BusyEndsByCompletionOrReset :
    (∃ t, step (busyWith 0#32 [] []) = .next t ∧ (busyWith 0#32 [] []).phase = .busy 0#32 ∧ t.phase = .idle) ∧
    ∃ t, step (busyWith 0#32 [] [.resetInput true]) = .next t ∧
      (busyWith 0#32 [] [.resetInput true]).phase = .busy 0#32 ∧ t.phase = .idle :=
  ⟨⟨_, rfl, rfl, rfl⟩, _, rfl, rfl, rfl⟩

/-- A SETI of 0 changes a register and Z, and a host write changes a register. -/
theorem witness_RegistersAndFlagsChangeOnlyAsNamed :
    (∃ t, step (busyWith 0x00000402#32 [(4, 9)] []) = .next t ∧ ¬ ResetStep (busyWith 0x00000402#32 [(4, 9)] []) ∧
      t.x 4 ≠ (busyWith 0x00000402#32 [(4, 9)] []).x 4 ∧
      t.status.z ≠ (busyWith 0x00000402#32 [(4, 9)] []).status.z) ∧
    ∃ t, step (idleWith [] [hostWrite w64.params 0x1000 5#32]) = .next t ∧
      ¬ ResetStep (idleWith [] [hostWrite w64.params 0x1000 5#32]) ∧ t.x 0 ≠ 0 := by
  refine ⟨⟨_, rfl, ?_, by decide, by decide⟩, _, rfl, ?_, by decide⟩
  · rintro (h | ⟨_, _, h⟩ | ⟨_, _, _, h, _⟩) <;> cases h
  · rintro (h | ⟨_, _, h⟩ | ⟨_, _, _, h, _, hw, hv⟩)
    · cases h
    · cases h
    · cases h
      cases hw
      exact absurd hv (by decide)

theorem witness_SoftResetClearsEverything :
    (2#32).getLsbD 1 = true ∧
    (busyWith 0x00021321#32 modexpRegs [hostWrite w64.params 0x0010 2#32]).resetInput = false ∧
    (busyWith 0x00021321#32 modexpRegs [hostWrite w64.params 0x0010 2#32]).pending =
      hostWrite w64.params 0x0010 2#32 :: [] := by decide

theorem witness_HardwareResetClearsEverything_edge :
    ∃ t, step (busyWith 0x00021321#32 modexpRegs [.resetInput true]) = .next t ∧
      ∃ level rest, (busyWith 0x00021321#32 modexpRegs [.resetInput true]).pending = .resetInput level :: rest :=
  ⟨_, rfl, true, [], rfl⟩

theorem witness_HardwareResetClearsEverything_level :
    ∃ t, step { idleWith modexpRegs [] with resetInput := true } = .next t ∧
      ({ idleWith modexpRegs [] with resetInput := true } : State).resetInput = true := ⟨_, rfl, rfl⟩

theorem witness_NopCompletes :
    let s := idleWith [] [hostWrite w64.params 0x0008 0x00000000#32, .engine]
    s.phase = .idle ∧ s.resetInput = false ∧
    s.pending = hostWrite s.params 0x0008 0x00000000#32 :: .engine :: [] := by decide

theorem witness_GcdstepReduces :
    ((0 : Reg) = 0 ∨ (0 : Reg) = 1 ∨ (0 : Reg) = 1) ∧ ((1 : Reg) = 0 ∨ (1 : Reg) = 1 ∨ (0 : Reg) = 1) ∧
    ((2 : Reg) = 1 ∨ (2 : Reg) = 1 ∨ (1 : Reg) = 1) ∧
    ((2 : Reg) ≠ 0 ∧ (2 : Reg) ≠ 1 ∧ (0 : Reg) ≠ 1) ∧
    (idleWith [(0, 2)] []).x 1 = 0 ∧ (idleWith [(0, 240), (1, 46)] []).x 1 ≠ 0 := by decide

/-- Program P3: the fifth repetition finds Z = 1. -/
theorem witness_GcdstepLoopReachesGcd :
    ((2 : Reg) ≠ 0 ∧ (2 : Reg) ≠ 1 ∧ (0 : Reg) ≠ 1) ∧
    ∃ t, 1 ≤ 5 ∧ repeatCommand (.gcdstep 2 0 1) 5 (idleWith [(0, 240), (1, 46)] []) = .next t ∧ t.status.z = true :=
  ⟨by decide, _, by decide, rfl, by decide +kernel⟩

theorem witness_EgcdWritesGroup :
    13 < (14 : Reg).val ∧ (13 : Reg).val ≤ 13 ∧
    eg ((idleWith [(0, 240), (1, 46)] []).x 0) ((idleWith [(0, 240), (1, 46)] []).x 1) = (2, -9, 47) := by
  decide +kernel

theorem witness_EgIsTheRecursion : 240 ≠ 0 ∧ eg (46 % 240) 240 = (2, 47, -9) := by decide +kernel

theorem witness_EgCoefficientBounds : 0 < 240 ∧ 0 < 46 ∧ eg 240 46 = (2, -9, 47) := by decide +kernel

theorem witness_EgIterativeLoopAgrees : 240 ≤ 240 := by decide

theorem witness_EgcdRegistersSatisfyBezout :
    (13 : Reg).val ≤ 13 ∧ (idleWith [(0, 2 ^ 64 - 1), (1, 2 ^ 64 - 2)] []).x 0 < 2 ^ w64.W ∧
    (idleWith [(0, 2 ^ 64 - 1), (1, 2 ^ 64 - 2)] []).x 1 < 2 ^ w64.W := by decide

theorem witness_ModinvWritesInverse :
    (idleWith [(1, 17)] []).x 3 = 0 ∧
    ((idleWith [(1, 6), (3, 3120)] []).x 3 ≠ 0 ∧
      Nat.gcd ((idleWith [(1, 6), (3, 3120)] []).x 1) ((idleWith [(1, 6), (3, 3120)] []).x 3) ≠ 1) ∧
    ((idleWith [(1, 17), (3, 3120)] []).x 3 ≠ 0 ∧
      Nat.gcd ((idleWith [(1, 17), (3, 3120)] []).x 1) ((idleWith [(1, 17), (3, 3120)] []).x 3) = 1) := by decide

theorem witness_ModmulWritesProduct :
    (idleWith [(1, 7)] []).x 3 = 0 ∧ (idleWith [(1, 7), (3, 1)] []).x 3 ≠ 0 := by decide

theorem witness_ModexpWritesPower :
    (idleWith [(1, 4)] []).x 3 = 0 ∧ (idleWith [(1, 4), (3, 1)] []).x 3 ≠ 0 := by decide

/-- 4^(5 + 8) mod 497, with the two parts in v6 and v7 and their product in v8. -/
theorem witness_ModexpOfSum :
    let s := idleWith [(0, 497), (1, 4), (2, 5), (3, 8), (4, 13)] []
    s.x 0 ≠ 0 ∧ s.x 4 = s.x 2 + s.x 3 ∧
    ((6 : Reg) ≠ 1 ∧ (6 : Reg) ≠ 3 ∧ (6 : Reg) ≠ 0 ∧ (7 : Reg) ≠ 0 ∧ (7 : Reg) ≠ 6) ∧
    ∃ t1 t2 t3 u, exec (.modexp 6 1 2 0) s = .next t1 ∧ exec (.modexp 7 1 3 0) t1 = .next t2 ∧
      exec (.modmul 8 6 7 0) t2 = .next t3 ∧ exec (.modexp 9 1 4 0) s = .next u :=
  ⟨by decide, by decide, by decide, _, _, _, _, rfl, rfl, rfl, rfl⟩

theorem witness_RsaRoundTrip :
    let s := idleWith [(0, 3233), (1, 17), (3, 2753), (4, 72)] []
    s.x 0 = 3233 ∧ s.x 1 = 17 ∧ s.x 3 = 2753 ∧ s.x 4 < 3233 ∧ (6 : Reg) ≠ 3 ∧ (6 : Reg) ≠ 0 := by decide

theorem witness_RadixInverseInverts : 3 % 2 = 1 ∧ 3 ≤ 3 ∧ 1 ≤ 1 ∧ 1 < 3 ∧ 2 ^ 64 * 1 % 3 = 1 := by decide

/-- Each clause: N = 0, N even, A = N, B = N, V-N1 at W = 64 where R^-1 mod 497 is 277, and N = 1 where R^-1 is 0. -/
theorem witness_MontmulWritesProduct :
    let s := idleWith [(1, 4), (2, 13), (3, 497), (4, 1), (5, 496)] []
    s.x 0 = 0 ∧ (s.x 5 ≠ 0 ∧ s.x 5 % 2 = 0) ∧ (s.x 3 % 2 = 1 ∧ s.x 3 ≥ s.x 3) ∧
    (s.x 3 % 2 = 1 ∧ s.x 1 < s.x 3 ∧ s.x 2 < s.x 3 ∧ 277 < s.x 3 ∧ 2 ^ s.W * 277 % s.x 3 = 1 % s.x 3) ∧
    (s.x 4 % 2 = 1 ∧ s.x 0 < s.x 4 ∧ 0 < s.x 4 ∧ 2 ^ s.W * 0 % s.x 4 = 1 % s.x 4) := by decide

theorem witness_TomontWritesForm :
    let s := idleWith [(1, 496), (3, 497)] []
    s.x 0 = 0 ∧ (s.x 1 ≠ 0 ∧ s.x 1 % 2 = 0) ∧ (s.x 3 % 2 = 1 ∧ s.x 3 ≥ s.x 3) ∧ s.x 3 % 2 = 1 ∧ s.x 1 < s.x 3 := by
  decide

theorem witness_FrommontWritesResidue :
    let s := idleWith [(1, 496), (3, 497)] []
    s.x 0 = 0 ∧ (s.x 1 ≠ 0 ∧ s.x 1 % 2 = 0) ∧ (s.x 3 % 2 = 1 ∧ s.x 3 ≥ s.x 3) ∧
    s.x 3 % 2 = 1 ∧ s.x 1 < s.x 3 ∧ 277 < s.x 3 ∧ 2 ^ s.W * 277 % s.x 3 = 1 % s.x 3 := by decide

theorem witness_Montr2WritesConstant :
    let s := idleWith [(1, 2), (3, 1)] []
    s.x 0 = 0 ∧ (s.x 1 ≠ 0 ∧ s.x 1 % 2 = 0) ∧ s.x 3 % 2 = 1 := by decide

theorem witness_MontgomeryFormRoundTrip :
    let s := idleWith [(1, 496), (3, 497)] []
    s.x 3 % 2 = 1 ∧ s.x 1 < s.x 3 ∧ (0 : Reg) ≠ 3 := by decide

theorem witness_MontgomeryProductIsModmul :
    let s := idleWith [(1, 4), (2, 13), (3, 497)] []
    s.x 3 % 2 = 1 ∧ s.x 1 < s.x 3 ∧ s.x 2 < s.x 3 ∧
    ((4 : Reg) ≠ 3 ∧ (4 : Reg) ≠ 2 ∧ (5 : Reg) ≠ 3 ∧ (5 : Reg) ≠ 4 ∧ (6 : Reg) ≠ 3) := by decide

/-- The modulus 3 at W = 64: N' = (2^64 - 1)/3 since 3 * N' + 1 = 2^64. -/
theorem witness_ReductionGivesMontmul :
    let s := idleWith [(1, 1), (2, 1), (3, 3)] []
    s.x 3 % 2 = 1 ∧ s.x 3 < 2 ^ s.W ∧ s.x 1 < s.x 3 ∧ s.x 2 < s.x 3 ∧
    6148914691236517205 < 2 ^ s.W ∧ (s.x 3 * 6148914691236517205 + 1) % 2 ^ s.W = 0 ∧
    6148914691236517205 = (s.x 1 * s.x 2 % 2 ^ s.W) * 6148914691236517205 % 2 ^ s.W ∧
    1 = (s.x 1 * s.x 2 + 6148914691236517205 * s.x 3) / 2 ^ s.W := by decide

theorem witness_IdAndConfigAreConstants :
    (idleWith [] [hostRead w64.params 0x0000]).resetInput = false ∧
    (idleWith [] [hostRead w64.params 0x0000]).pending = hostRead w64.params 0x0000 :: [] ∧
    (idleWith [] [hostRead w64.params 0x0004]).pending = hostRead w64.params 0x0004 :: [] ∧
    (idleWith [] [hostWrite w64.params 0x0000 7#32]).pending = hostWrite w64.params 0x0000 7#32 :: [] ∧
    (idleWith [] [hostWrite w64.params 0x0004 7#32]).pending = hostWrite w64.params 0x0004 7#32 :: [] := by decide

/-- The last limb of v15 at W = 64. -/
theorem witness_LimbAccessWhileIdle :
    let s := idleWith [(15, 2 ^ 64 - 1)] [hostRead w64.params (0x1000 + 0x400 * (15 : Reg).val + 4 * 1)]
    let t := idleWith [(15, 2 ^ 64 - 1)] [hostWrite w64.params (0x1000 + 0x400 * (15 : Reg).val + 4 * 1) 5#32]
    s.phase = .idle ∧ s.resetInput = false ∧ 1 < s.W / 32 ∧
    s.pending = hostRead s.params (0x1000 + 0x400 * (15 : Reg).val + 4 * 1) :: [] ∧
    t.phase = .idle ∧ t.resetInput = false ∧ 1 < t.W / 32 ∧ t.x 15 < 2 ^ t.W ∧
    t.pending = hostWrite t.params (0x1000 + 0x400 * (15 : Reg).val + 4 * 1) 5#32 :: [] := by decide

theorem witness_RegisterIsSumOfLimbs :
    (idleWith [(0, 2 ^ 64 - 1)] []).phase = .idle ∧ (idleWith [(0, 2 ^ 64 - 1)] []).x 0 < 2 ^ w64.W := by decide

theorem witness_LoadSetsRegister :
    let s := idleWith [(0, 2 ^ 64 - 1)] (hostLoad w64.params 0 (2 ^ 33 + 1))
    s.phase = .idle ∧ s.resetInput = false ∧ s.x 0 < 2 ^ s.W ∧ 2 ^ 33 + 1 < 2 ^ s.W ∧
    s.pending = hostLoad s.params 0 (2 ^ 33 + 1) ++ [] := by decide

/-- The kinds of access with a bus error, at the ends of their ranges. -/
theorem witness_BusErrorsHaveNoEffect :
    ([(0x000C, 1), (0x0000, 8), (0x0002, 4), (0x0014, 4), (0x0FFC, 4), (0x5000, 4), (0xFFFC, 4),
      (0x1000 + 0x400 * 0 + 4 * 2, 4), (0x1000 + 0x400 * 15 + 4 * 255, 4)].all (fun (off, bytes) =>
        decide ((idleWith [] []).resetInput = false ∧ off < 0x10000 ∧
          (bytes ≠ 4 ∨ off % 4 ≠ 0 ∨ (0x0014 ≤ off ∧ off ≤ 0x0FFF) ∨ 0x5000 ≤ off ∨
            off = 0x1000 + 0x400 * 0 + 4 * 2 ∨ off = 0x1000 + 0x400 * 15 + 4 * 255)))) = true ∧
    w64.W / 32 ≤ 2 ∧ w64.W / 32 ≤ 255 ∧
    (idleWith [] [.bus ⟨w64.params.base + 0x0014, 4, .read⟩]).pending =
      .bus ⟨w64.params.base + 0x0014, 4, .read⟩ :: [] := by decide

theorem witness_BusyAccessesSetHazard :
    let s := busyWith 0x00021321#32 [] [hostRead w64.params (0x1000 + 0x400 * (3 : Reg).val + 4 * 1)]
    let t := busyWith 0x00021321#32 [] [hostWrite w64.params (0x1000 + 0x400 * (3 : Reg).val + 4 * 0) 5#32]
    let u := busyWith 0x00021321#32 [] [hostWrite w64.params 0x0008 0#32]
    (s.phase = .busy 0x00021321#32 ∧ s.resetInput = false ∧ 1 < s.W / 32 ∧
      s.pending = hostRead s.params (0x1000 + 0x400 * (3 : Reg).val + 4 * 1) :: []) ∧
    (t.phase = .busy 0x00021321#32 ∧ t.resetInput = false ∧ 0 < t.W / 32 ∧
      t.pending = hostWrite t.params (0x1000 + 0x400 * (3 : Reg).val + 4 * 0) 5#32 :: []) ∧
    u.phase = .busy 0x00021321#32 ∧ u.resetInput = false ∧ u.pending = hostWrite u.params 0x0008 0#32 :: [] := by decide

theorem witness_ControlReadsHaveNoEffect :
    [0x0008, 0x000C, 0x0010].all (fun off =>
      decide ((busyWith 0x00021321#32 [] [hostRead w64.params off]).resetInput = false ∧
        (busyWith 0x00021321#32 [] [hostRead w64.params off]).pending = hostRead w64.params off :: [])) = true := by
  decide

theorem witness_StatusWriteClearsDoneAndHazard :
    (busyWith 0x00021321#32 [] [hostWrite w64.params 0x000C 0xA#32]).resetInput = false ∧
    (busyWith 0x00021321#32 [] [hostWrite w64.params 0x000C 0xA#32]).pending =
      hostWrite w64.params 0x000C 0xA#32 :: [] := by decide

theorem witness_CtrlWriteSetsInterruptEnable :
    (idleWith [] [hostWrite w64.params 0x0010 1#32]).resetInput = false ∧ (1#32).getLsbD 1 = false ∧
    (0#32).getLsbD 1 = false ∧
    (idleWith [] [hostWrite w64.params 0x0010 1#32]).pending = hostWrite w64.params 0x0010 1#32 :: [] := by decide

/-- The idle engine of width 64 with IE = 1 and a completion pending, so IRQ = 1. -/
def irqPending (events : List Event) : State := { w64.completeOk [] none with ie := true, pending := events }

/-- IRQ rises at the completion of a NOP. -/
theorem witness_IrqRisesAndFallsExactlyByItsCauses_completion :
    ∃ t, step { busyWith 0#32 [] [.engine] with ie := true } = .next t ∧
      ({ busyWith 0#32 [] [.engine] with ie := true } : State).irq = false ∧ t.irq = true := ⟨_, rfl, rfl, rfl⟩

/-- V-H16: IRQ rises at the CTRL write. -/
theorem witness_IrqRisesAndFallsExactlyByItsCauses_enable :
    ∃ t, step { w64.completeOk [] none with pending := [hostWrite w64.params 0x0010 1#32] } = .next t ∧
      ({ w64.completeOk [] none with pending := [hostWrite w64.params 0x0010 1#32] } : State).irq = false ∧
      t.irq = true := ⟨_, rfl, rfl, rfl⟩

/-- V-H15: IRQ falls as DONE is cleared. -/
theorem witness_IrqRisesAndFallsExactlyByItsCauses_done :
    ∃ t, step (irqPending [hostWrite w64.params 0x000C 2#32]) = .next t ∧
      (irqPending [hostWrite w64.params 0x000C 2#32]).irq = true ∧ t.irq = false := ⟨_, rfl, rfl, rfl⟩

/-- V-H17: IRQ falls as the next command is accepted. -/
theorem witness_IrqRisesAndFallsExactlyByItsCauses_acceptance :
    ∃ t, step (irqPending [hostWrite w64.params 0x0008 0#32]) = .next t ∧
      (irqPending [hostWrite w64.params 0x0008 0#32]).irq = true ∧ t.irq = false := ⟨_, rfl, rfl, rfl⟩

/-- R210: IRQ falls as IE is cleared. -/
theorem witness_IrqRisesAndFallsExactlyByItsCauses_disable :
    ∃ t, step (irqPending [hostWrite w64.params 0x0010 0#32]) = .next t ∧
      (irqPending [hostWrite w64.params 0x0010 0#32]).irq = true ∧ t.irq = false := ⟨_, rfl, rfl, rfl⟩

/-- R231: IRQ falls at a soft reset. -/
theorem witness_IrqRisesAndFallsExactlyByItsCauses_reset :
    ∃ t, step (irqPending [hostWrite w64.params 0x0010 2#32]) = .next t ∧
      (irqPending [hostWrite w64.params 0x0010 2#32]).irq = true ∧ t.irq = false := ⟨_, rfl, rfl, rfl⟩

theorem witness_HazardExactlyOnViolation :
    ∃ t, step (busyWith 0x00021321#32 [] [hostWrite w64.params 0x0008 0#32]) = .next t ∧
      (busyWith 0x00021321#32 [] [hostWrite w64.params 0x0008 0#32]).resetInput = false ∧
      (busyWith 0x00021321#32 [] [hostWrite w64.params 0x0008 0#32]).status.hz = false ∧ t.status.hz = true :=
  ⟨_, rfl, rfl, rfl, rfl⟩

/-- An access just below the window and one just above it, with BASE = 0x40000000. -/
theorem witness_OutsideWindowHasNoEffect :
    let s : State := { idleWith [] [.bus ⟨0x3FFFFFFC, 4, .read⟩] with params := ⟨0, 0x40000000, 5⟩ }
    let t : State := { idleWith [] [.bus ⟨0x40010000, 4, .write 1#32⟩] with params := ⟨0, 0x40000000, 5⟩ }
    (s.resetInput = false ∧ s.pending = .bus ⟨0x3FFFFFFC, 4, .read⟩ :: [] ∧ 0x3FFFFFFC < s.params.base) ∧
    t.resetInput = false ∧ t.pending = .bus ⟨0x40010000, 4, .write 1#32⟩ :: [] ∧
    t.params.base + 0x10000 ≤ 0x40010000 := by decide

theorem witness_IssueThenWaitCompletes :
    let s := idleWith modexpRegs (hostIssue w64.params (.modexp 3 1 2 0) :: (hostWait w64.params 2 ++ []))
    s.phase = .idle ∧ s.resetInput = false ∧
    s.pending = hostIssue s.params (.modexp 3 1 2 0) :: (hostWait s.params 2 ++ []) := by decide

end Sys2Proof.Tests
end

section
/-! Proofs about the control registers: what ID and CONFIG hold, the two outcomes of a CMD write, and the reset
values (10_state.md R27, R30, R35). -/

namespace Sys2Proof.Machine

/-! ### The fields of CONFIG (R27) -/

/-- W fits the 16 bits that CONFIG gives it (R7: W is at most 8192). -/
theorem W_lt_two_pow_16 (p : Params) : p.W < 2 ^ 16 := by unfold Params.W; omega

/-- CONFIG[15:0] is W. -/
theorem configWord_width (p : Params) : ((configWord p).extractLsb' 0 16).toNat = p.W := by
  have hlow : (configWord p).extractLsb' 0 16 = BitVec.ofNat 16 p.W := BitVec.extractLsb'_append_eq_right
  rw [hlow, BitVec.toNat_ofNat, Nat.mod_eq_of_lt (W_lt_two_pow_16 p)]

/-- A field of CONFIG[31:16] is a field of the version and NREG, whatever W is. -/
theorem configWord_high (p : Params) {start len : Nat} (h : 16 ≤ start) :
    (configWord p).extractLsb' start len = (Config.version ++ Config.nreg).extractLsb' (start - 16) len :=
  BitVec.extractLsb'_append_eq_of_le h

/-- CONFIG[23:16] is NREG. -/
theorem configWord_nreg (p : Params) : (configWord p).extractLsb' 16 8 = Config.nreg :=
  (configWord_high p (by decide)).trans BitVec.extractLsb'_append_eq_right

/-- CONFIG[31:24] is the version. -/
theorem configWord_version (p : Params) : (configWord p).extractLsb' 24 8 = Config.version :=
  (configWord_high p (by decide)).trans BitVec.extractLsb'_append_eq_left

/-! ### An access that only gets an answer -/

/-- An event whose only effect is the answer r uses up its place in the order and leaves the engine as it was. -/
theorem answer_advance_of_cons {s : State} {e : Event} {rest : List Event} (h : s.pending = e :: rest) (r : Reply) :
    EngineUnchanged s (s.advance.answer r) ∧ (s.advance.answer r).pending = rest ∧
      (s.advance.answer r).replies = s.replies ++ [r] := by
  simp [EngineUnchanged, h]

/-! ### The two outcomes of a CMD write (R30) -/

theorem issue_of_busy {s : State} (h : s.busy = true) (c : Word) : s.issue c = s.hazard := if_pos h

theorem issue_of_not_busy {s : State} (h : s.busy = false) (c : Word) : s.issue c = s.load c := if_neg (by simp [h])

/-- A step that performs a host's write of c to CMD. -/
theorem step_hostWrite_cmd {s : State} {c : Word} {rest : List Event} (hr : s.resetInput = false)
    (h : s.pending = hostWrite s.params 0x0008 c :: rest) :
    step s = .next ((s.advance.issue c).answer (.written 0x0008)) :=
  step_hostWrite hr h (by decide) (by decide) (targetOf_cmd s.params)

/-! ### The obligations -/

/-- Settles O9, by the two outcomes of `State.issue`: the hazard of a busy engine and the acceptance of an idle one. -/
theorem cmdWriteAccepts : Obligations.CmdWriteAccepts := by
  intro s c rest hr hp
  refine ⟨_, step_hostWrite_cmd hr hp, ?_⟩
  cases hb : s.busy with
  | true => rw [issue_of_busy (by simpa using hb)]; simp [hp]
  | false => rw [issue_of_not_busy (by simpa using hb)]; simp [hp]

/-- Settles O47: each of the four accesses only gets its answer, and `configWord` has the fields of R27. -/
theorem idAndConfigAreConstants : Obligations.IdAndConfigAreConstants := by
  intro s rest hr
  refine ⟨fun hp => ?readId, fun hp => ?readConfig, fun v hp => ?writeId, fun v hp => ?writeConfig⟩
  case readId =>
    exact ⟨_, step_hostRead hr hp (by decide) (by decide) (targetOf_id s.params), answer_advance_of_cons hp _⟩
  case readConfig =>
    obtain ⟨hsame, hpending, hreplies⟩ := answer_advance_of_cons hp (.data 0x0004 (configWord s.params))
    exact ⟨_, _, step_hostRead hr hp (by decide) (by decide) (targetOf_config s.params), hsame, hpending, hreplies,
      configWord_width s.params, configWord_nreg s.params, configWord_version s.params⟩
  case writeId =>
    exact ⟨_, step_hostWrite hr hp (by decide) (by decide) (targetOf_id s.params), answer_advance_of_cons hp _⟩
  case writeConfig =>
    exact ⟨_, step_hostWrite hr hp (by decide) (by decide) (targetOf_config s.params), answer_advance_of_cons hp _⟩

/-- Settles O20: the stored fields are those that `State.reset` lists, and CONFIG's are its fields at every W. -/
theorem resetValues : Obligations.ResetValues := by
  refine ⟨?registers, rfl, ?status, ?ctrl, rfl, rfl, rfl, ?width, ?constants⟩
  case registers => intro r; simp [State.x, State.reset]
  case status => decide
  case ctrl => decide
  case width => exact configWord_width State.reset.params
  case constants => exact (configWord_high State.reset.params (by decide)).trans (by decide)

end Sys2Proof.Machine
end

section
/-! Proofs about the register window: the limbs of an idle engine and the accesses that get a bus error
(20_memory.md R51, R53, R55 to R57). -/

namespace Sys2Proof.Machine

/-! ### A limb of an idle engine (R53) -/

theorem readTarget_limb_of_idle {s : State} (h : s.phase = .idle) (i : Reg) (j : Nat) :
    readTarget (.limb i j) s = (limbOf (s.x i) j, s) := by
  simp [readTarget, h]

theorem writeTarget_limb_of_idle {s : State} (h : s.phase = .idle) (i : Reg) (j : Nat) (v : Word) :
    writeTarget (.limb i j) v s = s.setLimb i j v := by
  simp [writeTarget, h]

@[simp] theorem setLimb_x_self (s : State) (i : Reg) (j : Nat) (v : Word) :
    (s.setLimb i j v).x i = withLimb (s.x i) j v := x_setX_self s i _

@[simp] theorem setLimb_params (s : State) (i : Reg) (j : Nat) (v : Word) : (s.setLimb i j v).params = s.params := rfl
@[simp] theorem setLimb_cmd (s : State) (i : Reg) (j : Nat) (v : Word) : (s.setLimb i j v).cmd = s.cmd := rfl
@[simp] theorem setLimb_status (s : State) (i : Reg) (j : Nat) (v : Word) : (s.setLimb i j v).status = s.status := rfl
@[simp] theorem setLimb_ie (s : State) (i : Reg) (j : Nat) (v : Word) : (s.setLimb i j v).ie = s.ie := rfl
@[simp] theorem setLimb_phase (s : State) (i : Reg) (j : Nat) (v : Word) : (s.setLimb i j v).phase = s.phase := rfl
@[simp] theorem setLimb_resetInput (s : State) (i : Reg) (j : Nat) (v : Word) : (s.setLimb i j v).resetInput = s.resetInput := rfl
@[simp] theorem setLimb_pending (s : State) (i : Reg) (j : Nat) (v : Word) : (s.setLimb i j v).pending = s.pending := rfl
@[simp] theorem setLimb_replies (s : State) (i : Reg) (j : Nat) (v : Word) : (s.setLimb i j v).replies = s.replies := rfl
@[simp] theorem setLimb_draws (s : State) (i : Reg) (j : Nat) (v : Word) : (s.setLimb i j v).draws = s.draws := rfl

/-- A limb write changes no other register. -/
theorem setLimb_regsKept (s : State) (i : Reg) (j : Nat) (v : Word) : RegsKeptExcept s (s.setLimb i j v) [i] := by
  intro r hr
  exact x_setX_ne s _ (Ne.symm (List.ne_of_not_mem_cons hr))

/-- A write of a limb below W/32 keeps the register in [0, 2^W) (R20). -/
theorem setLimb_x_lt {s : State} {i : Reg} {j : Nat} (v : Word) (hj : j < s.params.limbs) (hx : s.x i < 2 ^ s.W) :
    (s.setLimb i j v).x i < 2 ^ s.W := by
  rw [setLimb_x_self]
  rw [State.W, W_eq_limbs] at hx ⊢
  exact withLimb_lt v hj hx

/-! ### The offsets of the limbs (R53) -/

theorem limbOffset_mod_four (i : Reg) (j : Nat) : limbOffset i j % 4 = 0 := by
  unfold limbOffset
  omega

theorem limbOffset_lt_window (p : Params) (i : Reg) {j : Nat} (hj : j < p.limbs) : limbOffset i j < 0x10000 :=
  (limbOffset_lt p i hj).trans (by decide)

/-! ### A step whose first event is an access of the register file or gets a bus error -/

/-- An idle engine answers a read of off(i, j) with limb j of x[i], and only answers it. -/
theorem step_hostRead_limb_of_idle {s : State} {i : Reg} {j : Nat} {rest : List Event} (hp : s.phase = .idle)
    (hr : s.resetInput = false) (hj : j < s.params.limbs)
    (h : s.pending = hostRead s.params (limbOffset i j) :: rest) :
    step s = .next (s.advance.answer (.data (limbOffset i j) (limbOf (s.x i) j))) := by
  rw [step_hostRead hr h (limbOffset_lt_window _ i hj) (limbOffset_mod_four i j) (targetOf_limbOffset _ i hj),
    readTarget_limb_of_idle (by simpa using hp), advance_x]

/-- An idle engine performs a write to off(i, j) on limb j of x[i]. -/
theorem step_hostWrite_limb_of_idle {s : State} {i : Reg} {j : Nat} {v : Word} {rest : List Event}
    (hp : s.phase = .idle) (hr : s.resetInput = false) (hj : j < s.params.limbs)
    (h : s.pending = hostWrite s.params (limbOffset i j) v :: rest) :
    step s = .next ((s.advance.setLimb i j v).answer (.written (limbOffset i j))) := by
  rw [step_hostWrite hr h (limbOffset_lt_window _ i hj) (limbOffset_mod_four i j) (targetOf_limbOffset _ i hj),
    writeTarget_limb_of_idle (by simpa using hp)]

/-- An access in the window that is not a 32-bit aligned access of a target only gets the bus error response. -/
theorem step_busError {s : State} {off bytes : Nat} {op : AccessOp} {rest : List Event} (hr : s.resetInput = false)
    (h : s.pending = .bus { addr := s.params.base + off, bytes := bytes, op := op } :: rest) (hoff : off < 0x10000)
    (hbad : bytes ≠ 4 ∨ off % 4 ≠ 0 ∨ targetOf s.params off = none) :
    step s = .next (s.advance.answer (.busError off)) := by
  have hserve := serve_busError (s := s.advance) op hoff (by simpa using hbad)
  rw [advance_params] at hserve
  rw [step_of_bus h, hserve, held_of_released (by simpa using hr)]

/-! ### The obligations -/

/-- Settles O48: an idle read only gets its answer, and an idle write is `State.setLimb`, which replaces one digit in
base 2^32 of one register. -/
theorem limbAccessWhileIdle : Obligations.LimbAccessWhileIdle := by
  intro s i j rest hphase hr hj
  refine ⟨fun hp => ?read, fun v hp => ?write⟩
  case read =>
    exact ⟨_, step_hostRead_limb_of_idle hphase hr hj hp, answer_advance_of_cons hp _⟩
  case write =>
    refine ⟨_, step_hostWrite_limb_of_idle hphase hr hj hp, ?written, ?otherLimbs, ?otherRegs, ?bound, ?frame⟩
    case written =>
      rw [answer_x, setLimb_x_self]
      exact limbOf_withLimb_self _ j v
    case otherLimbs =>
      intro k hk
      rw [answer_x, setLimb_x_self]
      exact limbOf_withLimb_ne _ v hk
    case otherRegs => exact setLimb_regsKept s.advance i j v
    case bound => exact setLimb_x_lt (s := s.advance) v hj
    case frame => simp [hp, limbOffset]

/-- Settles O49: the words read are the limbs of x[i], whose sum is x[i] modulo 2^W. -/
theorem registerIsSumOfLimbs : Obligations.RegisterIsSumOfLimbs := by
  intro s i hphase hx
  simp only [readTarget_limb_of_idle hphase]
  have hsum := sum_limbs (s.x i) s.params.limbs
  rw [← W_eq_limbs, Nat.mod_eq_of_lt hx] at hsum
  exact hsum.symm

/-- Settles O51: an access of each of the kinds listed is of another width, misaligned, or names no target. -/
theorem busErrorsHaveNoEffect : Obligations.BusErrorsHaveNoEffect := by
  intro s off bytes op rest hr hoff hp hkind
  have hbad : bytes ≠ 4 ∨ off % 4 ≠ 0 ∨ targetOf s.params off = none :=
    hkind.imp_right (Or.imp_right targetOf_reserved)
  exact ⟨_, step_busError hr hp hoff hbad, answer_advance_of_cons hp _⟩

end Sys2Proof.Machine
end

section
/-! Proofs about the utility commands: the one word of NOP and its way through acceptance and completion, MOV and
SETI (40_utility.md R100 to R102). -/

namespace Sys2Proof.Machine

/-! ### The words of the utility commands (R83, R84, R92) -/

/-- A command whose word is selected by its row is the command that its word decodes to. -/
theorem decode_encode_of_encodesItsRow {i : Instr} (h : Laws.EncodesItsRow.Statement i) :
    decode (encode i) = .ok i := by
  obtain ⟨row, hrow, hsel, hbuild⟩ := h
  rw [decode_of_selects hrow hsel, hbuild]

/-- The only row that gives NOP fixes all 32 bits of the word to 0. -/
theorem mask_value_of_build_nop (c : Word) :
    ∀ row ∈ opcodeTable, row.build c = .nop → row.mask = BitVec.allOnes 32 ∧ row.value = 0x00000000#32 := by
  simp [opcodeTable]

/-- NOP is the all-zero word only (R86, R100). -/
theorem decode_eq_nop_iff (c : Word) : decode c = .ok .nop ↔ c = 0x00000000#32 := by
  constructor
  · intro h
    obtain ⟨row, hrow, hsel, hnop⟩ := selects_of_decode h
    obtain ⟨hmask, hvalue⟩ := mask_value_of_build_nop c row hrow hnop.symm
    rwa [Row.selects, hmask, hvalue, BitVec.and_allOnes, beq_iff_eq] at hsel
  · rintro rfl
    exact decode_encode_of_encodesItsRow Laws.EncodesItsRow.nop

/-! ### The completion of a command that writes nothing (R31) -/

@[simp] theorem completeOk_irq (s : State) (l : List (Reg × Nat)) (f : Option Flags) :
    (s.completeOk l f).irq = s.ie := by
  simp [State.irq]

theorem exec_nop (s : State) : exec .nop s = .next (s.completeOk [] none) := exec_eq_complete .nop s

@[simp] theorem writeAll_nil (s : State) : s.writeAll [] = s := rfl

/-! ### A command issued to an idle engine (R30, R31) -/

/-- A step that performs a host's write of c to CMD while idle accepts c. -/
theorem step_hostWrite_cmd_of_idle {s : State} {c : Word} {rest : List Event} (hp : s.phase = .idle)
    (hr : s.resetInput = false) (h : s.pending = hostWrite s.params 0x0008 c :: rest) :
    step s = .next ((s.advance.load c).answer (.written 0x0008)) := by
  rw [step_hostWrite_cmd hr h, issue_of_not_busy (s := s.advance) (busy_of_idle hp)]

/-- The turn of a busy engine runs the command that the accepted word decodes to. -/
theorem step_engine_of_busy {s : State} {c : Word} {i : Instr} {rest : List Event}
    (h : s.pending = .engine :: rest) (hp : s.phase = .busy c) (hr : s.resetInput = false) (hd : decode c = .ok i) :
    step s = exec i s.advance := by
  rw [step_of_engine h, engineTurn_busy (s := s.advance) hr hp, runCommand_ok hd]

/-! ### The immediate (R87) -/

theorem zextImm_beq_zero (imm16 : BitVec 16) : (zextImm imm16 == 0) = (imm16 == 0#16) := by
  rw [Bool.eq_iff_iff, beq_iff_eq, beq_iff_eq, BitVec.toNat_eq]
  rfl

/-! ### The obligations -/

/-- Settles O23: the one word is that of the row with every bit fixed, and the two steps are the acceptance of that
word and the completion with no writes and no flags. -/
theorem nopCompletes : Obligations.NopCompletes := by
  refine ⟨decode_eq_nop_iff, fun s => ?completes, fun s rest hphase hr hp => ?issued⟩
  case completes =>
    exact ⟨_, exec_nop s, fun r => by simp, completeOk_succeeded_none s [], completeOk_irq s [] none⟩
  case issued =>
    have haccept := step_hostWrite_cmd_of_idle hphase hr hp
    have hnext : ((s.advance.load 0x00000000#32).answer (.written 0x0008)).pending = .engine :: rest := by simp [hp]
    have hcomplete := step_engine_of_busy hnext rfl hr ((decode_eq_nop_iff _).mpr rfl)
    refine ⟨_, _, haccept, hcomplete.trans (exec_nop _), ?_⟩
    simp

/-- Settles O24: MOV is a command with one destination, and its value is A. -/
theorem movCopies : Obligations.MovCopies := by
  intro rd rs1 s
  refine ⟨decode_encode_of_encodesItsRow (Laws.EncodesItsRow.mov rd rs1), ?_⟩
  rw [exec_eq_complete]
  exact complete_okOne s rd (s.x rs1)

/-- Settles O25: SETI is a command with one destination, and its value is the zero-extended immediate. -/
theorem setiWritesImmediate : Obligations.SetiWritesImmediate := by
  intro rd imm16 s
  refine ⟨decode_encode_of_encodesItsRow (Laws.EncodesItsRow.seti rd imm16), ?_⟩
  rw [exec_eq_complete, ← zextImm_beq_zero]
  exact complete_okOne s rd (zextImm imm16)

end Sys2Proof.Machine
end

section
/-! Proofs about the gcd_stepper: GCD, the three cases of GCDSTEP and the three cases of MODINV (41_gcd_stepper.md R121,
R122, R125). -/

namespace Sys2Proof.Machine

/-! ### The zero flag of GCD (R121) -/

theorem gcd_beq_zero (a b : Nat) : (Nat.gcd a b == 0) = (a == 0 && b == 0) := by
  rw [Bool.eq_iff_iff, Bool.and_eq_true, beq_iff_eq, beq_iff_eq, beq_iff_eq]
  exact Nat.gcd_eq_zero_iff

/-! ### GCDSTEP, case by case (R122) -/

section gcdstep
variable {rd rs1 rs2 : Reg}

theorem exec_gcdstep_of_overlap (h : rd = rs1 ∨ rd = rs2 ∨ rs1 = rs2) (s : State) :
    exec (.gcdstep rd rs1 rs2) s = .next (s.completeError .operand) := by
  have hcheck : gcdstepOperandsOk rd rs1 rs2 ≠ true := by
    rw [Ne, gcdstepOperandsOk_iff]
    tauto
  rw [exec_eq_complete, resultOf, if_neg hcheck, complete_err]

theorem exec_gcdstep_of_reduced (h1 : rd ≠ rs1) (h2 : rd ≠ rs2) (h12 : rs1 ≠ rs2) {s : State} (hb : s.x rs2 = 0) :
    exec (.gcdstep rd rs1 rs2) s = .next (s.completeOk [] (some { z := true, xs := false, ys := false })) := by
  rw [exec_eq_complete, resultOf, if_pos ((gcdstepOperandsOk_iff rd rs1 rs2).mpr ⟨h1, h2, h12⟩), if_pos hb,
    complete_ok]

theorem exec_gcdstep_of_divisor (h1 : rd ≠ rs1) (h2 : rd ≠ rs2) (h12 : rs1 ≠ rs2) {s : State} (hb : s.x rs2 ≠ 0) :
    exec (.gcdstep rd rs1 rs2) s =
      .next (s.completeOk [(rs1, s.x rs2), (rs2, s.x rs1 % s.x rs2), (rd, s.x rs1 / s.x rs2)]
        (some (zeroFlags (s.x rs1 % s.x rs2)))) := by
  rw [exec_eq_complete, resultOf, if_pos ((gcdstepOperandsOk_iff rd rs1 rs2).mpr ⟨h1, h2, h12⟩), if_neg hb,
    complete_ok]

end gcdstep

/-- Three writes to pairwise distinct registers all survive. -/
theorem writeAll_three_x {i j k : Reg} (hij : i ≠ j) (hik : i ≠ k) (hjk : j ≠ k) (s : State) (u v w : Nat) :
    (s.writeAll [(i, u), (j, v), (k, w)]).x i = u ∧ (s.writeAll [(i, u), (j, v), (k, w)]).x j = v ∧
      (s.writeAll [(i, u), (j, v), (k, w)]).x k = w := by
  simp [State.writeAll, x_setX, hij.symm, hik.symm, hjk.symm]

/-! ### MODINV, case by case (R125) -/

theorem resultOf_modinv_of_zero (rd : Reg) {rs1 rs3 : Reg} {x : Reg → Nat} (hn : x rs3 = 0) (W : Nat) :
    resultOf (.modinv rd rs1 rs3) x W = .err .modzero := if_pos hn

theorem resultOf_modinv_of_gcd_ne_one (rd : Reg) {rs1 rs3 : Reg} {x : Reg → Nat} (hn : x rs3 ≠ 0)
    (hg : Nat.gcd (x rs1) (x rs3) ≠ 1) (W : Nat) : resultOf (.modinv rd rs1 rs3) x W = .err .noinv := by
  rw [resultOf, if_neg hn, if_pos hg]

theorem resultOf_modinv_of_gcd_eq_one (rd : Reg) {rs1 rs3 : Reg} {x : Reg → Nat} (hn : x rs3 ≠ 0)
    (hg : Nat.gcd (x rs1) (x rs3) = 1) (W : Nat) :
    resultOf (.modinv rd rs1 rs3) x W = okOne rd (modInverse (x rs1) (x rs3)) := by
  rw [resultOf, if_neg hn, if_neg (not_not.mpr hg)]

/-- The inverse is EG's coefficient s, reduced to [0, n). -/
theorem modInverse_cast {n : Nat} (hn : n ≠ 0) (a : Nat) : (modInverse a n : Int) = (eg a n).2.1 % (n : Int) :=
  Int.toNat_of_nonneg (Int.emod_nonneg _ (Int.natCast_ne_zero.mpr hn))

/-- An inverse of 0 makes 0 = 1 mod n, so n is 1; and the only value in [0, 1) is 0. -/
theorem modInverse_eq_zero_iff {a n : Nat} (hn : n ≠ 0) (hg : Nat.gcd a n = 1) : modInverse a n = 0 ↔ n = 1 := by
  constructor
  · intro hzero
    have hmul := mul_modInverse (Nat.pos_of_ne_zero hn) hg
    rw [hzero, mul_zero, Nat.zero_mod] at hmul
    exact Nat.dvd_one.mp (Nat.dvd_of_mod_eq_zero hmul.symm)
  · rintro rfl
    exact Nat.lt_one_iff.mp (modInverse_lt Nat.one_pos a)

/-! ### The obligations -/

/-- Settles O26: GCD is a command with one destination, and its value is 0 only for A = B = 0. -/
theorem gcdWritesGcd : Obligations.GcdWritesGcd := by
  intro rd rs1 rs2 s
  refine ⟨decode_encode_of_encodesItsRow (Laws.EncodesItsRow.gcd rd rs1 rs2), ?_⟩
  rw [exec_eq_complete, ← gcd_beq_zero]
  exact complete_okOne s rd (Nat.gcd (s.x rs1) (s.x rs2))

/-- Settles O27, by the three cases of GCDSTEP; its three writes survive because the fields are distinct. -/
theorem gcdstepReduces : Obligations.GcdstepReduces := by
  intro rd rs1 rs2 s
  refine ⟨decode_encode_of_encodesItsRow (Laws.EncodesItsRow.gcdstep rd rs1 rs2), fun h => ?overlap,
    fun h1 h2 h12 hb => ?reduced, fun h1 h2 h12 hb => ?divisor⟩
  case overlap => exact ⟨_, exec_gcdstep_of_overlap h s, completeError_failed s .operand⟩
  case reduced =>
    exact ⟨_, exec_gcdstep_of_reduced h1 h2 h12 hb, fun r => by simp, completeOk_succeeded s [] _⟩
  case divisor =>
    obtain ⟨hx1, hx2, hxd⟩ :=
      writeAll_three_x h12 h1.symm h2.symm s (s.x rs2) (s.x rs1 % s.x rs2) (s.x rs1 / s.x rs2)
    exact ⟨_, exec_gcdstep_of_divisor h1 h2 h12 hb, (completeOk_x ..).trans hx1, (completeOk_x ..).trans hx2,
      (completeOk_x ..).trans hxd, completeOk_regsKept s _ _, completeOk_succeeded s _ (zeroFlags _)⟩

/-- Settles O34, by the three cases of MODINV; in the last one the value written is `modInverse`, which is the only
inverse in [0, N) and is 0 for N = 1 only. -/
theorem modinvWritesInverse : Obligations.ModinvWritesInverse := by
  intro rd rs1 rs3 s
  rw [exec_eq_complete]
  refine ⟨decode_encode_of_encodesItsRow (Laws.EncodesItsRow.modinv rd rs1 rs3), fun hn => ?modzero,
    fun hn hg => ?noinv, fun hn hg => ?inverse⟩
  case modzero =>
    rw [resultOf_modinv_of_zero rd hn]
    exact completeError_of s .modzero
  case noinv =>
    rw [resultOf_modinv_of_gcd_ne_one rd hn hg]
    exact completeError_of s .noinv
  case inverse =>
    have hpos := Nat.pos_of_ne_zero hn
    have hz : (modInverse (s.x rs1) (s.x rs3) == 0) = (s.x rs3 == 1) := by
      rw [Bool.eq_iff_iff, beq_iff_eq, beq_iff_eq, modInverse_eq_zero_iff hn hg]
    obtain ⟨t, hexec, hval, hkept, hsucc⟩ := complete_okOne s rd (modInverse (s.x rs1) (s.x rs3))
    rw [resultOf_modinv_of_gcd_eq_one rd hn hg]
    refine ⟨t, hexec, ?_, ?_, ?_, ?_, hkept, hz ▸ hsucc⟩ <;> rw [hval]
    · exact modInverse_lt hpos (s.x rs1)
    · exact mul_modInverse hpos hg
    · exact fun d hd hmul => modInverse_unique hpos hg hd hmul
    · exact modInverse_cast hn (s.x rs1)

end Sys2Proof.Machine
end

section
/-! Proofs about the modular_exponentiation_engine: MODMUL and MODEXP, whose only check is MODZERO (42_modexp.md R150,
R151). -/

namespace Sys2Proof.Machine

/-! ### A command with one destination whose only check is MODZERO (R150, R151) -/

/-- The completion of the result that both rules give: MODZERO for N = 0, and the value in rd otherwise. -/
theorem complete_modzeroOrOkOne (n : Nat) (rd : Reg) (v : Nat) (s : State) :
    (n = 0 → ∃ t, complete (if n = 0 then .err .modzero else okOne rd v) s = .next t ∧ Failed s t .modzero) ∧
    (n ≠ 0 → ∃ t, complete (if n = 0 then .err .modzero else okOne rd v) s = .next t ∧
      t.x rd = v ∧ RegsKeptExcept s t [rd] ∧ Succeeded s t (v == 0) false false) := by
  refine ⟨fun hn => ?modzero, fun hn => ?value⟩
  case modzero =>
    rw [if_pos hn]
    exact completeError_of s .modzero
  case value =>
    rw [if_neg hn]
    exact complete_okOne s rd v

/-! ### The results of the two commands -/

theorem resultOf_modmul (rd rs1 rs2 rs3 : Reg) (x : Reg → Nat) (W : Nat) :
    resultOf (.modmul rd rs1 rs2 rs3) x W =
      if x rs3 = 0 then .err .modzero else okOne rd (x rs1 * x rs2 % x rs3) := rfl

/-- The loop of R152 gives MODEXP the reduced exact power of R151. -/
theorem resultOf_modexp (rd rs1 rs2 rs3 : Reg) (x : Reg → Nat) (W : Nat) :
    resultOf (.modexp rd rs1 rs2 rs3) x W =
      if x rs3 = 0 then .err .modzero else okOne rd (x rs1 ^ x rs2 % x rs3) := by
  rw [resultOf]
  split
  case isTrue => rfl
  case isFalse hn => rw [modPow_eq (Nat.pos_of_ne_zero hn)]

/-! ### The obligations -/

/-- Settles O35: MODMUL's only check is MODZERO, and its value is the reduced exact product. -/
theorem modmulWritesProduct : Obligations.ModmulWritesProduct := by
  intro rd rs1 rs2 rs3 s
  rw [exec_eq_complete, resultOf_modmul]
  exact ⟨decode_encode_of_encodesItsRow (Laws.EncodesItsRow.modmul rd rs1 rs2 rs3), complete_modzeroOrOkOne _ rd _ s⟩

/-- Settles O36: MODEXP's only check is MODZERO, and the value of its loop is the reduced exact power. -/
theorem modexpWritesPower : Obligations.ModexpWritesPower := by
  intro rd rs1 rs2 rs3 s
  rw [exec_eq_complete, resultOf_modexp]
  exact ⟨decode_encode_of_encodesItsRow (Laws.EncodesItsRow.modexp rd rs1 rs2 rs3), complete_modzeroOrOkOne _ rd _ s⟩

end Sys2Proof.Machine
end

section
/-! Proofs about the montgomery_multiplier: MONTMUL, TOMONT, FROMMONT and MONTR2, which share the checks of R171
(43_montgomery.md R171 to R175). -/

namespace Sys2Proof.Machine

/-! ### The checks, one by one (R171) -/

section checks
variable {n : Nat}

theorem montCheck_of_zero (hn : n = 0) (ds : List Nat) : montCheck n ds = some .modzero := if_pos hn

theorem montCheck_of_even (hn : n ≠ 0) (heven : n % 2 = 0) (ds : List Nat) : montCheck n ds = some .modeven := by
  rw [montCheck, if_neg hn, if_pos heven]

theorem montCheck_of_range {ds : List Nat} (hodd : n % 2 = 1) (hds : ∃ d ∈ ds, n ≤ d) :
    montCheck n ds = some .range := by
  have hn : n ≠ 0 := by omega
  have hodd' : ¬ n % 2 = 0 := by omega
  have hany : ds.any (fun d => decide (n ≤ d)) = true := by simpa using hds
  rw [montCheck, if_neg hn, if_neg hodd', if_pos hany]

end checks

/-! ### The completion of a Montgomery command that fails a check, for any value and destination (R171) -/

section failedCheck
variable {s : State} {rd : Reg} {n v : Nat} {ds : List Nat}

theorem complete_montResult_of_montCheck {e : ErrCode} (h : montCheck n ds = some e) :
    ∃ t, complete (montResult rd n ds v) s = .next t ∧ Failed s t e := by
  rw [montResult, h]
  exact completeError_of s e

theorem complete_montResult_of_zero (hn : n = 0) :
    ∃ t, complete (montResult rd n ds v) s = .next t ∧ Failed s t .modzero :=
  complete_montResult_of_montCheck (montCheck_of_zero hn ds)

theorem complete_montResult_of_even (hn : n ≠ 0) (heven : n % 2 = 0) :
    ∃ t, complete (montResult rd n ds v) s = .next t ∧ Failed s t .modeven :=
  complete_montResult_of_montCheck (montCheck_of_even hn heven ds)

theorem complete_montResult_of_range (hodd : n % 2 = 1) (hds : ∃ d ∈ ds, n ≤ d) :
    ∃ t, complete (montResult rd n ds v) s = .next t ∧ Failed s t .range :=
  complete_montResult_of_montCheck (montCheck_of_range hodd hds)

end failedCheck

/-! ### The completion of a command that multiplies by R^-1 (R170, R172, R174) -/

/-- R^-1 is the one number below N with (R * R^-1) mod N = 1 mod N. -/
theorem eq_radixInverse {W n r : Nat} (hodd : n % 2 = 1) (hr : r < n) (hmul : 2 ^ W * r % n = 1 % n) :
    r = radixInverse W n :=
  modInverse_unique (by omega) (radix_coprime W hodd) hr hmul

/-- The value that MONTMUL (with v = A * B) and FROMMONT (with v = A) write, for R^-1 given by its equation. -/
theorem complete_montResult_radixInverse {n : Nat} {ds : List Nat} (hodd : n % 2 = 1) (hds : ∀ d ∈ ds, d < n)
    (s : State) (rd : Reg) (W v : Nat) :
    ∃ t, complete (montResult rd n ds (v * radixInverse W n % n)) s = .next t ∧
      (∀ rinv, rinv < n → 2 ^ W * rinv % n = 1 % n → t.x rd = v * rinv % n) ∧
      RegsKeptExcept s t [rd] ∧ Succeeded s t (t.x rd == 0) false false := by
  obtain ⟨t, hexec, hval, hkept, hsucc⟩ := complete_montResult hodd hds s rd (v * radixInverse W n % n)
  refine ⟨t, hexec, fun rinv hlt hmul => ?_, hkept, hval.symm ▸ hsucc⟩
  rw [hval, eq_radixInverse hodd hlt hmul]

/-! ### The obligations -/

/-- Settles O40: by the three checks on A and B, and the value A * B times the only R^-1. -/
theorem montmulWritesProduct : Obligations.MontmulWritesProduct := by
  intro rd rs1 rs2 rs3 s
  rw [exec_eq_complete, resultOf]
  exact ⟨decode_encode_of_encodesItsRow (Laws.EncodesItsRow.montmul rd rs1 rs2 rs3),
    complete_montResult_of_zero, complete_montResult_of_even,
    fun hodd hle => complete_montResult_of_range hodd (by simpa using hle),
    fun hodd ha hb => complete_montResult_radixInverse hodd (by simp [ha, hb]) s rd s.W (s.x rs1 * s.x rs2)⟩

/-- Settles O41: by the three checks on A, and a value that needs no inverse. -/
theorem tomontWritesForm : Obligations.TomontWritesForm := by
  intro rd rs1 rs3 s
  rw [exec_eq_complete, resultOf]
  exact ⟨decode_encode_of_encodesItsRow (Laws.EncodesItsRow.tomont rd rs1 rs3),
    complete_montResult_of_zero, complete_montResult_of_even,
    fun hodd hle => complete_montResult_of_range hodd (by simpa using hle),
    fun hodd ha => complete_montResult hodd (by simpa using ha) s rd (s.x rs1 * 2 ^ s.W % s.x rs3)⟩

/-- Settles O42: by the three checks on A, and the value A times the only R^-1. -/
theorem frommontWritesResidue : Obligations.FrommontWritesResidue := by
  intro rd rs1 rs3 s
  rw [exec_eq_complete, resultOf]
  exact ⟨decode_encode_of_encodesItsRow (Laws.EncodesItsRow.frommont rd rs1 rs3),
    complete_montResult_of_zero, complete_montResult_of_even,
    fun hodd hle => complete_montResult_of_range hodd (by simpa using hle),
    fun hodd ha => complete_montResult_radixInverse hodd (by simpa using ha) s rd s.W (s.x rs1)⟩

/-- Settles O43: with no data operand the checks are those of the modulus only, and the range check holds vacuously. -/
theorem montr2WritesConstant : Obligations.Montr2WritesConstant := by
  intro rd rs3 s
  rw [exec_eq_complete, resultOf]
  exact ⟨decode_encode_of_encodesItsRow (Laws.EncodesItsRow.montr2 rd rs3),
    complete_montResult_of_zero, complete_montResult_of_even,
    fun hodd => complete_montResult hodd (by simp) s rd (2 ^ (2 * s.W) % s.x rs3)⟩

end Sys2Proof.Machine
end

section
/-! Proofs about command words: decoding undoes encoding, encoding undoes decoding, and the rows of the opcode map
select disjoint sets of words (30_encoding.md R81 to R84, R92). -/

namespace Sys2Proof.Machine

/-! ### Words put together from their fields (R81, R82) -/

/-- A format R word is the concatenation of its fields; its bits 31:24 must be 0. -/
theorem encodeR_fields {c : Word} (hhigh : c.extractLsb' 24 8 = 0#8) :
    encodeR (opField c) (rdField c) (rs1Field c) (rs2Field c) (rs3Field c) = c := by
  apply BitVec.eq_of_getLsbD_eq
  intro k hk
  have hzero : 24 ≤ k → c.getLsbD k = false := fun h => by
    have hbit := congrArg (fun b => b.getLsbD (k - 24)) hhigh
    simpa [BitVec.getLsbD_extractLsb', show k - 24 < 8 by omega, show 24 + (k - 24) = k by omega] using hbit
  rw [getLsbD_encodeR]
  split_ifs with hop hrd hrs1 hrs2 hrs3
  · simp [opField, hop]
  · rw [testBit_rdField c (by omega)]; congr 1; omega
  · rw [testBit_rs1Field c (by omega)]; congr 1; omega
  · rw [testBit_rs2Field c (by omega)]; congr 1; omega
  · rw [testBit_rs3Field c (by omega)]; congr 1; omega
  · exact (hzero (by omega)).symm

/-- A format I word is the concatenation of its fields; its bits 15:12 must be 0. -/
theorem encodeI_fields {c : Word} (hgap : rs1Field c = 0) :
    encodeI (opField c) (rdField c) (imm16Field c) = c := by
  apply BitVec.eq_of_getLsbD_eq
  intro k hk
  rw [getLsbD_encodeI]
  split_ifs with hop hrd hrs1
  · simp [opField, hop]
  · rw [testBit_rdField c (by omega)]; congr 1; omega
  · have hbit := testBit_rs1Field c (show k - 12 < 4 by omega)
    rw [hgap, show 12 + (k - 12) = k by omega] at hbit
    simpa using hbit
  · rw [getLsbD_imm16Field c (by omega)]; congr 1; omega

/-! ### The bits that a row fixes (R83, R84) -/

/-- Where the mask of a row is all ones, a word that the row selects has the bits of the row's match. -/
theorem extractLsb'_of_selects {row : Row} {c : Word} {lo len : Nat} (h : row.selects c = true)
    (hmask : row.mask.extractLsb' lo len = BitVec.allOnes len) :
    c.extractLsb' lo len = row.value.extractLsb' lo len := by
  have hs : c &&& row.mask = row.value := by simpa [Row.selects] using h
  rw [← hs, BitVec.extractLsb'_and, hmask, BitVec.and_allOnes]

/-- A register field that the row fixes to 0 is v0. -/
theorem field_eq_zero_of_selects {row : Row} {c : Word} {lo : Nat} (h : row.selects c = true)
    (hmask : row.mask.extractLsb' lo 4 = BitVec.allOnes 4) (hvalue : row.value.extractLsb' lo 4 = 0#4) :
    ((c.extractLsb' lo 4).toFin : Reg) = 0 := by
  rw [extractLsb'_of_selects h hmask, hvalue]
  rfl

/-- A word that a format R row selects is put together from the row's opcode and the word's fields, because the row
fixes bits 31:24 to 0. -/
theorem encodeR_of_selects {row : Row} {c : Word} (hrow : row ∈ opcodeTable) (h : row.selects c = true)
    (hmask : row.mask.extractLsb' 24 8 = BitVec.allOnes 8) (hvalue : row.value.extractLsb' 24 8 = 0#8)
    {rs1 rs2 rs3 : Reg} (h1 : rs1Field c = rs1) (h2 : rs2Field c = rs2) (h3 : rs3Field c = rs3) :
    encodeR row.op (rdField c) rs1 rs2 rs3 = c := by
  rw [← opField_of_selects hrow h, ← h1, ← h2, ← h3]
  exact encodeR_fields ((extractLsb'_of_selects h hmask).trans hvalue)

/-- A word that a format I row selects is put together from the row's opcode and the word's fields, because the row
fixes bits 15:12 to 0. -/
theorem encodeI_of_selects {row : Row} {c : Word} (hrow : row ∈ opcodeTable) (h : row.selects c = true)
    (hgap : rs1Field c = 0) : encodeI row.op (rdField c) (imm16Field c) = c := by
  rw [← opField_of_selects hrow h]
  exact encodeI_fields hgap

/-- The word of the command that a row gives from a word that it selects is that word: the fields that the command
names are the word's own, and every other bit is one that the row fixes. -/
theorem encode_build_of_selects {row : Row} {c : Word} (hrow : row ∈ opcodeTable) (h : row.selects c = true) :
    encode (row.build c) = c := by
  have hrow' := hrow
  have hzero : ∀ {lo : Nat}, row.mask.extractLsb' lo 4 = BitVec.allOnes 4 → row.value.extractLsb' lo 4 = 0#4 →
      ((c.extractLsb' lo 4).toFin : Reg) = 0 := field_eq_zero_of_selects h
  simp only [opcodeTable, List.cons_append, List.nil_append, List.mem_cons, List.not_mem_nil, or_false] at hrow'
  rcases hrow' with rfl | rfl | rfl | rfl | rfl | rfl | rfl | rfl | rfl | rfl | rfl | rfl | rfl
  · exact ((decode_eq_nop_iff c).mp (decode_of_selects hrow h)).symm -- NOP
  · exact encodeR_of_selects hrow h rfl rfl rfl (hzero rfl rfl) (hzero rfl rfl) -- MOV
  · exact encodeI_of_selects hrow h (hzero rfl rfl) -- SETI
  · exact encodeR_of_selects hrow h rfl rfl rfl rfl (hzero rfl rfl) -- GCD
  · exact encodeR_of_selects hrow h rfl rfl rfl rfl (hzero rfl rfl) -- GCDSTEP
  · exact encodeR_of_selects hrow h rfl rfl rfl rfl (hzero rfl rfl) -- EGCD
  · exact encodeR_of_selects hrow h rfl rfl rfl (hzero rfl rfl) rfl -- MODINV
  · exact encodeR_of_selects hrow h rfl rfl rfl rfl rfl -- MODMUL
  · exact encodeR_of_selects hrow h rfl rfl rfl rfl rfl -- MODEXP
  · exact encodeR_of_selects hrow h rfl rfl rfl rfl rfl -- MONTMUL
  · exact encodeR_of_selects hrow h rfl rfl rfl (hzero rfl rfl) rfl -- TOMONT
  · exact encodeR_of_selects hrow h rfl rfl rfl (hzero rfl rfl) rfl -- FROMMONT
  · exact encodeR_of_selects hrow h rfl rfl (hzero rfl rfl) (hzero rfl rfl) rfl -- MONTR2

/-- The opcodes of two rows of the map differ. -/
theorem opcodeTable_op_injective : ∀ n m : Fin opcodeTable.length, opcodeTable[n].op = opcodeTable[m].op → n = m := by
  decide

/-! ### The obligations -/

/-- Settles O1: the row that selects the word of a command gives the command back. -/
theorem decodeOfEncode : Obligations.DecodeOfEncode := by
  intro i
  apply decode_encode_of_encodesItsRow
  cases i with
  | nop => exact Laws.EncodesItsRow.nop
  | mov rd rs1 => exact Laws.EncodesItsRow.mov rd rs1
  | seti rd imm16 => exact Laws.EncodesItsRow.seti rd imm16
  | gcd rd rs1 rs2 => exact Laws.EncodesItsRow.gcd rd rs1 rs2
  | gcdstep rd rs1 rs2 => exact Laws.EncodesItsRow.gcdstep rd rs1 rs2
  | egcd rd rs1 rs2 => exact Laws.EncodesItsRow.egcd rd rs1 rs2
  | modinv rd rs1 rs3 => exact Laws.EncodesItsRow.modinv rd rs1 rs3
  | modmul rd rs1 rs2 rs3 => exact Laws.EncodesItsRow.modmul rd rs1 rs2 rs3
  | modexp rd rs1 rs2 rs3 => exact Laws.EncodesItsRow.modexp rd rs1 rs2 rs3
  | montmul rd rs1 rs2 rs3 => exact Laws.EncodesItsRow.montmul rd rs1 rs2 rs3
  | tomont rd rs1 rs3 => exact Laws.EncodesItsRow.tomont rd rs1 rs3
  | frommont rd rs1 rs3 => exact Laws.EncodesItsRow.frommont rd rs1 rs3
  | montr2 rd rs3 => exact Laws.EncodesItsRow.montr2 rd rs3

/-- Settles O2: a word decodes through a row that selects it, and such a word is that of the row's command. -/
theorem encodeOfDecode : Obligations.EncodeOfDecode := by
  intro c i h
  obtain ⟨row, hrow, hsel, rfl⟩ := selects_of_decode h
  exact encode_build_of_selects hrow hsel

/-- Settles O3: a word that two rows select has the opcode of both, and no two rows share an opcode. -/
theorem noTwoRowsSelectOneWord : Obligations.NoTwoRowsSelectOneWord := by
  intro w n m hn hm
  have hop := (opField_of_selects (List.getElem_mem n.isLt) hn).symm.trans
    (opField_of_selects (List.getElem_mem m.isLt) hm)
  exact opcodeTable_op_injective n m hop

/-- Settles O4: a selected word decodes through the row that selects it, and a word that decodes is selected. -/
theorem rowOrIllegal : Obligations.RowOrIllegal := by
  intro c
  refine ⟨fun row hrow hsel => decode_of_selects hrow hsel, fun hnone => ?_⟩
  cases hd : decode c with
  | error e => exact ⟨e, rfl⟩
  | ok i =>
    obtain ⟨row, hrow, hsel, -⟩ := selects_of_decode hd
    exact absurd hsel (by simp [hnone row hrow])

/-- Settles O5: each word is the encoding of the command that it decodes to. -/
theorem wordsOfEachFamilyDecode : Obligations.WordsOfEachFamilyDecode :=
  ⟨decodeOfEncode .nop, decodeOfEncode (.seti 4 3233), decodeOfEncode (.gcdstep 2 0 1),
    decodeOfEncode (.modinv 3 1 2), decodeOfEncode (.modexp 3 1 2 0), decodeOfEncode (.montmul 3 1 2 0)⟩

end Sys2Proof.Machine
end

section
/-! Proofs about the assembler: what it accepts is what the disassembler writes, or a pseudo-instruction
(30_encoding.md R89, R90). -/

namespace Sys2Proof.Machine

/-! ### The operand readers (R89) -/

theorem asmReg_eq_some_iff {o : AsmOperand} {r : Reg} : asmReg o = some r ↔ o = asmOfReg r :=
  ⟨asmReg_eq_some, fun h => h ▸ asmReg_asmOfReg r⟩

theorem asmImm_eq_some_iff {o : AsmOperand} {v : BitVec 16} : asmImm o = some v ↔ o = .imm v.toNat :=
  ⟨asmImm_eq_some, fun h => h ▸ asmImm_toNat v⟩

/-- An operand that R89 allows: a register v0 to v15 or an immediate of 16 bits. -/
def AsmOperand.inRange : AsmOperand → Prop
  | .v n => n < 16
  | .imm n => n < 65536

theorem inRange_asmOfReg (r : Reg) : (asmOfReg r).inRange := r.isLt

theorem inRange_imm (v : BitVec 16) : (AsmOperand.imm v.toNat).inRange := v.isLt

theorem inRange_of_mem_map {regs : List Reg} : ∀ o ∈ regs.map asmOfReg, o.inRange := by
  intro o ho
  obtain ⟨r, -, rfl⟩ := List.mem_map.mp ho
  exact inRange_asmOfReg r

/-- The disassembler writes registers and immediates in range only. -/
theorem inRange_of_mem_disassemble (i : Instr) : ∀ o ∈ (disassemble i).2, o.inRange := by
  cases i with
  | nop => simp [disassemble]
  | seti rd imm16 => simp [disassemble, inRange_asmOfReg, inRange_imm]
  | _ => exact inRange_of_mem_map

/-! ### A line that is accepted (R89, R90) -/

/-- An accepted line is a command as R89 writes it, or a pseudo-instruction with operands in range. -/
theorem assemble_cases {name : AsmName} {operands : List AsmOperand} {i : Instr}
    (h : assemble name operands = some i) :
    disassemble i = (name, operands) ∨
    (∃ d, name = .clr ∧ operands = [asmOfReg d]) ∨
    (∃ d, ∃ v : BitVec 16, name = .li ∧ operands = [asmOfReg d, .imm v.toNat]) ∨
    (∃ d a m, (name = .modsqr ∨ name = .montsqr) ∧ operands = [d, a, m].map asmOfReg) := by
  unfold assemble at h
  split at h <;> simp only [Option.bind_eq_bind, Option.bind_eq_some_iff, asmReg_eq_some_iff, asmImm_eq_some_iff,
    Option.pure_def, Option.some.injEq, reduceCtorEq] at h
  case h_1 => subst h; exact .inl rfl
  case h_2 | h_3 | h_13 => obtain ⟨r, rfl, r', rfl, rfl⟩ := h; exact .inl rfl
  case h_4 | h_5 | h_7 | h_11 | h_12 => obtain ⟨r, rfl, r', rfl, r'', rfl, rfl⟩ := h; exact .inl rfl
  case h_6 =>
    obtain ⟨rd, rfl, h⟩ := h
    split at h
    · exact absurd h (by simp)
    · simp only [Option.bind_eq_some_iff, asmReg_eq_some_iff, Option.some.injEq] at h
      obtain ⟨r, rfl, r', rfl, rfl⟩ := h
      exact .inl rfl
  case h_8 | h_9 | h_10 => obtain ⟨r, rfl, r', rfl, r'', rfl, r''', rfl, rfl⟩ := h; exact .inl rfl
  case h_14 => obtain ⟨d, rfl, -⟩ := h; exact .inr (.inl ⟨d, rfl, rfl⟩)
  case h_15 => obtain ⟨d, rfl, v, rfl, -⟩ := h; exact .inr (.inr (.inl ⟨d, v, rfl, rfl⟩))
  case h_16 => obtain ⟨d, rfl, a, rfl, -, -, m, rfl, -⟩ := h; exact .inr (.inr (.inr ⟨d, a, m, .inl rfl, rfl⟩))
  case h_17 => obtain ⟨d, rfl, a, rfl, -, -, m, rfl, -⟩ := h; exact .inr (.inr (.inr ⟨d, a, m, .inr rfl, rfl⟩))

/-- Every operand of an accepted line is in range. -/
theorem inRange_of_assemble {name : AsmName} {operands : List AsmOperand} {i : Instr}
    (h : assemble name operands = some i) : ∀ o ∈ operands, o.inRange := by
  rcases assemble_cases h with hi | ⟨d, -, rfl⟩ | ⟨d, v, -, rfl⟩ | ⟨d, a, m, -, rfl⟩
  · have hall := inRange_of_mem_disassemble i
    rwa [hi] at hall
  · exact inRange_of_mem_map (regs := [d])
  · simp [inRange_asmOfReg, inRange_imm]
  · exact inRange_of_mem_map

/-! ### The obligation -/

/-- Settles O6: each command by its line, the pseudo-instructions by their expansions, and the refusals by the shapes
of an accepted line. -/
theorem assemblyRoundTrip : Obligations.AssemblyRoundTrip := by
  refine ⟨fun i => ?command, fun d a m n => ?pseudo, fun name operands i h => ?shape, ?range⟩
  case command =>
    cases i with
    | egcd rd rs1 rs2 =>
      by_cases hrd : 13 < rd.val
      · simp [disassemble, assemble, hrd, Nat.not_le.mpr hrd]
      · simp [disassemble, assemble, hrd, Nat.not_lt.mp hrd]
    | _ => simp [disassemble, assemble]
  case pseudo => exact ⟨rfl, rfl, rfl, rfl⟩
  case shape =>
    rcases assemble_cases h with hi | ⟨d, hname, rfl⟩ | ⟨d, v, hname, rfl⟩ | ⟨d, a, m, hname, rfl⟩
    · exact .inl hi
    · exact .inr (.inl ⟨hname, rfl⟩)
    · exact .inr (.inr (.inl ⟨hname, rfl⟩))
    · exact .inr (.inr (.inr ⟨hname, rfl⟩))
  case range =>
    rintro name operands ⟨n, hbad⟩
    cases ha : assemble name operands with
    | none => rfl
    | some i =>
      rcases hbad with ⟨hmem, hn⟩ | ⟨hmem, hn⟩
      · exact absurd (inRange_of_assemble ha _ hmem) (Nat.not_lt.mpr hn)
      · exact absurd (inRange_of_assemble ha _ hmem) (Nat.not_lt.mpr hn)

end Sys2Proof.Machine
end

section
/-! Proofs about the completion of a command: it succeeds or fails, the error is the first that applies, and the turn of
a busy engine is that completion (10_state.md R31, R32; 30_encoding.md R92; 60_exceptions.md R200 to R205). -/

namespace Sys2Proof.Machine

/-! ### The error of a result is the first check that applies (R203) -/

/-- The error code of a result, if it is one. -/
def Result.error? : Result → Option ErrCode
  | .ok _ _ => none
  | .err e => some e

@[simp] theorem error?_ok (l : List (Reg × Nat)) (f : Option Flags) : (Result.ok l f).error? = none := rfl
@[simp] theorem error?_err (e : ErrCode) : (Result.err e).error? = some e := rfl
@[simp] theorem error?_okOne (rd : Reg) (v : Nat) : (okOne rd v).error? = none := rfl

@[simp] theorem error?_montResult (rd : Reg) (n : Nat) (ds : List Nat) (v : Nat) :
    (montResult rd n ds v).error? = montCheck n ds := by
  unfold montResult
  cases montCheck n ds <;> rfl

/-- The first check of a list with a check put in front. -/
theorem find?_check_cons (b : Bool) (e : ErrCode) (checks : List (Bool × ErrCode)) :
    (((b, e) :: checks).find? (fun c => c.1)).map Prod.snd =
      if b then some e else (checks.find? (fun c => c.1)).map Prod.snd := by
  cases b <;> rfl

theorem error?_ite (p : Prop) [Decidable p] (r r' : Result) :
    (if p then r else r').error? = if p then r.error? else r'.error? := apply_ite Result.error? p r r'

/-- The error of every command's result is the first of its checks that applies. -/
theorem error?_resultOf (i : Instr) (s : State) : (resultOf i s.x s.W).error? = firstError s i := by
  cases i with
  | gcdstep rd rs1 rs2 =>
    have hcheck : gcdstepOperandsOk rd rs1 rs2 = true ↔ ¬ (rd = rs1 ∨ rd = rs2 ∨ rs1 = rs2) := by
      rw [gcdstepOperandsOk_iff, not_or, not_or]
    simp only [resultOf, error?_ite, hcheck, ite_not, ite_self, error?_ok, error?_err, firstError, errorChecks,
      find?_check_cons, decide_eq_true_eq, List.find?_nil, Option.map_none]
  | egcd rd rs1 rs2 =>
    have hcheck : egcdOperandsOk rd = true ↔ ¬ 13 < rd.val := by rw [egcdOperandsOk_iff, Nat.not_lt]
    simp only [resultOf, error?_ite, hcheck, ite_not, error?_ok, error?_err, firstError, errorChecks,
      find?_check_cons, decide_eq_true_eq, List.find?_nil, Option.map_none]
  | montmul rd rs1 rs2 rs3 | tomont rd rs1 rs3 | frommont rd rs1 rs3 | montr2 rd rs3 =>
    simp only [resultOf, error?_montResult, montCheck, List.any_cons, List.any_nil, Bool.or_eq_true, ite_or,
      firstError, errorChecks, find?_check_cons, decide_eq_true_eq, List.find?_nil, Option.map_none, ge_iff_le,
      Bool.false_eq_true, if_false]
  | _ =>
    simp only [resultOf, error?_ite, error?_okOne, error?_ok, error?_err, firstError, errorChecks,
      find?_check_cons, decide_eq_true_eq, List.find?_nil, Option.map_none]

/-- A completion is the error completion of the first check that applies, or a successful one. -/
theorem exec_cases_firstError (i : Instr) (s : State) :
    (∃ e, firstError s i = some e ∧ exec i s = .next (s.completeError e)) ∨
    (∃ l f, firstError s i = none ∧ resultOf i s.x s.W = .ok l f ∧ exec i s = .next (s.completeOk l f)) := by
  rw [← error?_resultOf, exec_eq_complete]
  cases resultOf i s.x s.W with
  | ok l f => exact .inr ⟨l, f, rfl, rfl, rfl⟩
  | err e => exact .inl ⟨e, rfl, rfl⟩

/-- A successful completion, with the flags of the result or with those of before (R31). -/
theorem completeOk_succeeded_exists (s : State) (l : List (Reg × Nat)) (f : Option Flags) :
    ∃ z xs ys, Succeeded s (s.completeOk l f) z xs ys := by
  cases f with
  | none => exact ⟨_, _, _, completeOk_succeeded_none s l⟩
  | some f => exact ⟨_, _, _, completeOk_succeeded s l f⟩

/-! ### The turn of a busy engine (R31, R32, R62) -/

/-- The turn of a busy engine is the completion of the word in flight. -/
theorem step_of_busy_turn {s : State} {c : Word} (hn : s.engineNext) (hp : s.phase = .busy c)
    (hr : s.resetInput = false) : step s = runCommand c s.advance := by
  rw [step_of_engineNext hn, engineTurn_busy (s := s.advance) hr hp]

/-! ### The obligations -/

/-- Settles O10: the result of a command is writes with flags or an error code. -/
theorem everyCommandSucceedsOrFails : Obligations.EveryCommandSucceedsOrFails := by
  intro i s
  rcases exec_cases_firstError i s with ⟨e, -, hexec⟩ | ⟨l, f, -, -, hexec⟩
  · exact ⟨_, hexec, .inr ⟨e, completeError_failed s e⟩⟩
  · exact ⟨_, hexec, .inl (completeOk_succeeded_exists s l f)⟩

/-- Settles O11: the error of the result of a command is the first of its checks that applies. -/
theorem firstErrorIsReported : Obligations.FirstErrorIsReported := by
  intro i s
  rcases exec_cases_firstError i s with ⟨e, hfirst, hexec⟩ | ⟨l, f, hfirst, -, hexec⟩
  · refine ⟨_, hexec, fun e' he' => ?_, fun hnone => absurd (hfirst.symm.trans hnone) (by simp)⟩
    cases hfirst.symm.trans he'
    exact completeError_failed s e
  · exact ⟨_, hexec, fun e he => absurd (hfirst.symm.trans he) (by simp),
      fun _ => completeOk_succeeded_exists s l f⟩

/-- Settles O7, in both forms of an engine turn. -/
theorem stepRunsDecodedCommand : Obligations.StepRunsDecodedCommand := by
  intro s c i rest hp hr hd
  refine ⟨fun hnil => ?_, fun hcons => ?_⟩
  · rw [step_of_busy_turn (.inl hnil) hp hr, runCommand_ok hd, advance_of_nil hnil]
  · rw [step_of_busy_turn (.inr ⟨rest, hcons⟩) hp hr, runCommand_ok hd, advance_of_cons hcons]

/-- Settles O8, in both forms of an engine turn. -/
theorem illegalWordEndsIllegal : Obligations.IllegalWordEndsIllegal := by
  intro s c e rest hp hr hd
  refine ⟨fun hnil => ⟨_, ?_, completeError_failed s .illegal⟩, fun hcons => ⟨_, ?_, completeError_failed _ .illegal⟩⟩
  · rw [step_of_busy_turn (.inl hnil) hp hr, runCommand_error hd, advance_of_nil hnil]
  · rw [step_of_busy_turn (.inr ⟨rest, hcons⟩) hp hr, runCommand_error hd, advance_of_cons hcons]

end Sys2Proof.Machine
end

section
/-! What a write to STATUS or CTRL does to each field of the state (10_state.md R25, R26). -/

namespace Sys2Proof.Machine

/-! ### A write to STATUS (R25) -/

section writeStatus
variable (v : Word) (s : State)

@[simp] theorem writeStatus_params : (writeStatus v s).params = s.params := rfl
@[simp] theorem writeStatus_regs : (writeStatus v s).regs = s.regs := rfl
@[simp] theorem writeStatus_cmd : (writeStatus v s).cmd = s.cmd := rfl
@[simp] theorem writeStatus_ie : (writeStatus v s).ie = s.ie := rfl
@[simp] theorem writeStatus_phase : (writeStatus v s).phase = s.phase := rfl
@[simp] theorem writeStatus_resetInput : (writeStatus v s).resetInput = s.resetInput := rfl
@[simp] theorem writeStatus_pending : (writeStatus v s).pending = s.pending := rfl
@[simp] theorem writeStatus_replies : (writeStatus v s).replies = s.replies := rfl
@[simp] theorem writeStatus_draws : (writeStatus v s).draws = s.draws := rfl
@[simp] theorem writeStatus_err : (writeStatus v s).status.err = s.status.err := rfl
@[simp] theorem writeStatus_errCode : (writeStatus v s).status.errCode = s.status.errCode := rfl
@[simp] theorem writeStatus_z : (writeStatus v s).status.z = s.status.z := rfl
@[simp] theorem writeStatus_xs : (writeStatus v s).status.xs = s.status.xs := rfl
@[simp] theorem writeStatus_ys : (writeStatus v s).status.ys = s.status.ys := rfl

theorem writeStatus_done : (writeStatus v s).status.done = (s.status.done && !v.getLsbD 1) := rfl

theorem writeStatus_hz : (writeStatus v s).status.hz = (s.status.hz && !v.getLsbD 3) := rfl

end writeStatus

/-! ### A write to CTRL (R26, R231) -/

theorem writeCtrl_of_srst {v : Word} (h : v.getLsbD 1 = true) (s : State) : writeCtrl v s = s.engineReset := if_pos h

/-- IE set to b. -/
def State.enable (s : State) (b : Bool) : State := { s with ie := b }

theorem writeCtrl_of_not_srst {v : Word} (h : v.getLsbD 1 = false) (s : State) :
    writeCtrl v s = s.enable (v.getLsbD 0) := if_neg (Bool.eq_false_iff.mp h)

section enable
variable (s : State) (b : Bool)

@[simp] theorem enable_params : (s.enable b).params = s.params := rfl
@[simp] theorem enable_regs : (s.enable b).regs = s.regs := rfl
@[simp] theorem enable_cmd : (s.enable b).cmd = s.cmd := rfl
@[simp] theorem enable_ie : (s.enable b).ie = b := rfl
@[simp] theorem enable_phase : (s.enable b).phase = s.phase := rfl
@[simp] theorem enable_resetInput : (s.enable b).resetInput = s.resetInput := rfl
@[simp] theorem enable_pending : (s.enable b).pending = s.pending := rfl
@[simp] theorem enable_replies : (s.enable b).replies = s.replies := rfl
@[simp] theorem enable_draws : (s.enable b).draws = s.draws := rfl
@[simp] theorem enable_status : (s.enable b).status = s.status := rfl
@[simp] theorem enable_x (r : Reg) : (s.enable b).x r = s.x r := rfl

end enable

end Sys2Proof.Machine
end

section
/-! Proofs about every step: it answers a next state with the same parameters and keeps the invariant of the machine,
and the two resets put every piece of state at its reset value (10_state.md R20, R25, R30, R35; 70_reset_and_hazards.md
R230, R231; 93_implementation_defined.md Part B). -/

namespace Sys2Proof.Machine

/-! ### A step answers (Part B) -/

theorem engineTurn_next (s : State) : ∃ t, engineTurn s = .next t := by
  rcases engineTurn_cases s with ⟨-, h⟩ | ⟨-, -, h⟩ | ⟨c, i, -, -, -, h⟩ | ⟨c, e, -, -, -, h⟩
  · exact ⟨_, h⟩
  · exact ⟨_, h⟩
  · rw [h]; exact exec_next i s
  · exact ⟨_, h⟩

theorem step_next (s : State) : ∃ t, step s = .next t := by
  cases hq : s.pending with
  | nil => rw [step_of_nil hq]; exact engineTurn_next _
  | cons e rest =>
    rw [step_of_cons hq]
    cases e with
    | bus a => exact ⟨_, rfl⟩
    | engine => exact engineTurn_next _
    | resetInput b => exact ⟨_, rfl⟩

@[simp] theorem held_params (s : State) : s.held.params = s.params := by
  unfold State.held; split <;> simp

theorem step_params {s t : State} (h : step s = .next t) : t.params = s.params := by
  rcases step_cases h with ⟨b, rest, -, rfl⟩ | ⟨a, rest, -, rfl⟩ | ⟨-, -, rfl⟩ | ⟨-, -, -, rfl⟩ |
    ⟨c, i, -, -, -, -, hexec⟩ | ⟨c, e, -, -, -, -, rfl⟩
  · rfl
  · simp
  · rfl
  · rfl
  · exact (exec_commandFrame hexec).params
  · rfl

/-! ### What keeps the invariant -/

/-- The reset values meet the invariant. -/
theorem engineInv_engineReset (s : State) : EngineInv s.engineReset := by
  constructor <;> simp [Status.reset]

/-- With the reset input released the invariant speaks of W, the register file, CMD, the phase and STATUS without HZ. -/
theorem EngineInv.of_released_congr {s t : State} (h : EngineInv s) (hr : t.resetInput = false)
    (hparams : t.params = s.params) (hregs : t.regs = s.regs) (hcmd : t.cmd = s.cmd) (hphase : t.phase = s.phase)
    (hstatus : t.status = { s.status with hz := t.status.hz }) : EngineInv t := by
  obtain ⟨hlt, hbusy, herr, hcode, hsigns, -⟩ := h
  refine ⟨?_, ?_, ?_, ?_, ?_, fun hr' => absurd (hr.symm.trans hr') (by simp)⟩
  · simpa only [State.x, State.W, hparams, hregs] using hlt
  · rw [hphase, hcmd, hstatus]; exact hbusy
  · rw [hstatus]; exact herr
  · rw [hstatus]; exact hcode
  · rw [hstatus]; exact hsigns

/-- Version 1 produces the codes 1 to 6 (R201). -/
theorem code_ne_zero (e : ErrCode) : e.code ≠ 0#4 := by cases e <;> decide

theorem code_toNat_le (e : ErrCode) : e.code.toNat ≤ 6 := by cases e <;> decide

section released
variable {s : State} (h : EngineInv s) (hr : s.resetInput = false)
include h hr

theorem EngineInv.advance : EngineInv s.advance := h.of_released_congr hr rfl rfl rfl rfl rfl

theorem EngineInv.answer (r : Reply) : EngineInv (s.answer r) := h.of_released_congr hr rfl rfl rfl rfl rfl

theorem EngineInv.hazard : EngineInv s.hazard := h.of_released_congr hr rfl rfl rfl rfl rfl

theorem EngineInv.readTarget (t : Target) : EngineInv (readTarget t s).2 := by
  refine h.of_released_congr (by simpa using hr) (by simp) (by simp) (by simp) (by simp) ?_
  rcases readTarget_status t s with hst | ⟨-, -, hst⟩ <;> rw [hst]

theorem EngineInv.load (c : Word) : EngineInv (s.load c) where
  regs_lt := h.regs_lt
  busy_fields := by simp
  err_iff_code := by simp
  code_le := by simp
  signs := h.signs
  held hr' := absurd (hr.symm.trans hr') (by simp)

theorem EngineInv.issue (c : Word) : EngineInv (s.issue c) := by
  cases hb : s.busy with
  | true => rw [issue_of_busy hb]; exact h.hazard hr
  | false => rw [issue_of_not_busy hb]; exact h.load hr c

theorem EngineInv.writeStatus (v : Word) : EngineInv (writeStatus v s) where
  regs_lt := h.regs_lt
  busy_fields c hp := by
    obtain ⟨hcmd, hdone, herr, hcode⟩ := h.busy_fields c hp
    exact ⟨hcmd, by rw [writeStatus_done, hdone, Bool.false_and], herr, hcode⟩
  err_iff_code := h.err_iff_code
  code_le := h.code_le
  signs := h.signs
  held hr' := absurd (hr.symm.trans hr') (by simp)

theorem EngineInv.writeCtrl (v : Word) : EngineInv (writeCtrl v s) := by
  cases hv : v.getLsbD 1 with
  | true => rw [writeCtrl_of_srst hv]; exact engineInv_engineReset s
  | false => rw [writeCtrl_of_not_srst hv]; exact h.of_released_congr hr rfl rfl rfl rfl rfl

/-- A write of one limb below W/32 keeps its register within W bits, and touches no other. -/
theorem EngineInv.setLimb (i : Reg) {j : Nat} (hj : j < s.params.limbs) (v : Word) : EngineInv (s.setLimb i j v) where
  regs_lt r := by
    by_cases hri : r = i
    · subst hri; exact setLimb_x_lt v hj (h.regs_lt r)
    · rw [setLimb_regsKept s i j v r (by simpa using hri)]; exact h.regs_lt r
  busy_fields := h.busy_fields
  err_iff_code := h.err_iff_code
  code_le := h.code_le
  signs := h.signs
  held hr' := absurd (hr.symm.trans hr') (by simp)

/-- A write to any target that an access can name keeps the invariant. -/
theorem EngineInv.writeTarget {a : Access} {t : Target} (hn : a.names s.params t) (v : Word) :
    EngineInv (writeTarget t v s) := by
  cases t with
  | id => exact h
  | config => exact h
  | cmd => exact h.issue hr v
  | status => exact h.writeStatus hr v
  | ctrl => exact h.writeCtrl hr v
  | limb i j =>
    obtain ⟨off, -, -, -, ht⟩ := hn
    change EngineInv (if s.busy then s.hazard else s.setLimb i j v)
    split
    · exact h.hazard hr
    · exact h.setLimb hr i (targetOf_limb_inv ht) v

theorem EngineInv.serve (a : Access) : EngineInv (s.serve a) := by
  rcases serve_cases s a with ⟨-, he⟩ | ⟨-, off, he⟩ | ⟨off, t, -, -, he⟩ | ⟨off, t, v, hn, -, he⟩ <;> rw [he]
  · exact h
  · exact h.answer hr _
  · exact (h.readTarget hr t).answer (by simpa using hr) _
  · exact (h.writeTarget hr hn v).answer (by simpa using hr) _

theorem EngineInv.completeError (e : ErrCode) : EngineInv (s.completeError e) where
  regs_lt := h.regs_lt
  busy_fields := by simp
  err_iff_code := by simp [code_ne_zero]
  code_le := code_toNat_le e
  signs := h.signs
  held hr' := absurd (hr.symm.trans hr') (by simp)

/-- A command writes values below 2^W and flags whose signs agree (R14, R33). -/
theorem EngineInv.completeOk {i : Instr} {l : List (Reg × Nat)} {f : Option Flags}
    (hres : resultOf i s.x s.W = .ok l f) : EngineInv (s.completeOk l f) where
  regs_lt r := by
    have hW : 16 ≤ s.W := (by decide : 16 ≤ 64).trans (W_pos s.params)
    simpa [State.W] using x_writeAll_lt l s h.regs_lt (resultOf_writes_lt hW h.regs_lt hres) r
  busy_fields := by simp
  err_iff_code := by simp
  code_le := by simp
  signs := by
    cases f with
    | none => simpa using h.signs
    | some f => exact resultOf_signs hres
  held hr' := absurd (hr.symm.trans (by simpa using hr')) (by simp)

theorem EngineInv.exec {i : Instr} {t : State} (he : exec i s = .next t) : EngineInv t := by
  rcases exec_cases he with ⟨l, f, hres, rfl⟩ | ⟨e, -, rfl⟩
  · exact h.completeOk hr hres
  · exact h.completeError hr e

end released

/-! ### A step that resets (R230, R231) -/

/-- A state that the reset put at its reset values, whatever belongs to the outside. -/
theorem engineReset_clears (s : State) :
    (∀ r, s.engineReset.x r = 0) ∧ s.engineReset.cmd = 0x00000000#32 ∧ statusWord s.engineReset = 0x00000000#32 ∧
      ctrlWord s.engineReset = 0x00000000#32 ∧ s.engineReset.phase = .idle ∧ s.engineReset.irq = false := by
  obtain ⟨-, -, hstatus, hctrl, -⟩ := resetValues
  exact ⟨engineReset_x s, rfl, hstatus, hctrl, rfl, rfl⟩

/-- A change of the reset input, and every step while it is asserted, ends in a reset. -/
theorem step_of_hardwareReset {s t : State} (h : step s = .next t)
    (hreset : (∃ level rest, s.pending = .resetInput level :: rest) ∨ s.resetInput = true) :
    ∃ u : State, t = u.engineReset ∧ u.params = s.params := by
  rcases step_cases h with ⟨b, rest, -, rfl⟩ | ⟨a, rest, hq, rfl⟩ | ⟨-, -, rfl⟩ | ⟨hn, hr, -, -⟩ |
    ⟨c, i, hn, hr, -⟩ | ⟨c, e, hn, hr, -⟩
  · exact ⟨_, rfl, rfl⟩
  · have hr : s.resetInput = true := by simpa [hq] using hreset
    exact ⟨_, held_of_asserted (by simpa using hr), by simp⟩
  · exact ⟨_, rfl, rfl⟩
  all_goals
    exfalso
    rcases hn with hq | ⟨_, hq⟩ <;> simp [hq, hr] at hreset

/-! ### The obligations -/

/-- Settles O12: every reset meets the invariant, and with the reset input released each event keeps it. -/
theorem stepKeepsInv : Obligations.StepKeepsInv := by
  intro s t h hstep
  rcases step_cases hstep with ⟨b, rest, -, rfl⟩ | ⟨a, rest, -, rfl⟩ | ⟨-, -, rfl⟩ | ⟨-, hr, -, rfl⟩ |
    ⟨c, i, -, hr, -, -, hexec⟩ | ⟨c, e, -, hr, -, -, rfl⟩
  case inl => exact engineInv_engineReset _
  case inr.inl =>
    cases hr : s.resetInput with
    | true => rw [held_of_asserted (by simpa using hr)]; exact engineInv_engineReset _
    | false => rw [held_of_released (by simpa using hr)]; exact (h.advance hr).serve hr a
  · exact engineInv_engineReset _
  · exact h.advance hr
  · exact (h.advance hr).exec hr hexec
  · exact (h.advance hr).completeError hr .illegal

/-- Settles O13: the reset state is the state that a reset leaves. -/
theorem resetMeetsInv : Obligations.ResetMeetsInv := engineInv_engineReset State.reset

/-- Settles O14. -/
theorem stepAlwaysAnswersNext : Obligations.StepAlwaysAnswersNext := by
  intro s
  obtain ⟨t, h⟩ := step_next s
  exact ⟨t, h, step_params h⟩

/-- Settles O21: the write resets the engine before the reset input can, so its level only decides the answer. -/
theorem softResetClearsEverything : Obligations.SoftResetClearsEverything := by
  intro s v rest hv hq
  have hserve : s.advance.serve { addr := s.params.base + 0x0010, bytes := 4, op := .write v } =
      s.advance.engineReset.answer (.written 0x0010) := by
    have hw := serve_write (s := s.advance) (by decide) (by decide) (targetOf_ctrl s.params) v
    rwa [writeTarget, writeCtrl_of_srst hv] at hw
  have hstep := step_of_bus hq
  rw [hserve] at hstep
  obtain ⟨hx, hcmd, hstatus, hctrl, hphase, hirq⟩ := engineReset_clears s.advance
  cases hr : s.resetInput with
  | false =>
    rw [held_of_released (by simpa using hr)] at hstep
    exact ⟨_, hstep, hx, hcmd, hstatus, hctrl, hphase, hirq, rfl, hr, by simp [hq], rfl, fun _ => rfl⟩
  | true =>
    rw [held_of_asserted (by simpa using hr)] at hstep
    exact ⟨_, hstep, hx, hcmd, hstatus, hctrl, hphase, hirq, rfl, hr, by simp [hq], rfl, fun h => absurd h (by simp)⟩

/-- Settles O22. -/
theorem hardwareResetClearsEverything : Obligations.HardwareResetClearsEverything := by
  intro s t h hreset
  obtain ⟨u, rfl, hparams⟩ := step_of_hardwareReset h hreset
  obtain ⟨hx, hcmd, hstatus, hctrl, hphase, hirq⟩ := engineReset_clears u
  exact ⟨hx, hcmd, hstatus, hctrl, hphase, hirq, hparams⟩

end Sys2Proof.Machine
end

section
/-! Proofs about the life cycle of a command: a busy engine keeps its command and operands until a completion or a
reset, the completion comes, and only it and the host's limb writes change registers and flags (10_state.md R21, R28, R33;
20_memory.md R61, R65; 70_reset_and_hazards.md R240). -/

namespace Sys2Proof.Machine

/-! ### What one step can do to a busy engine -/

/-- s and t have the same command in flight, the same operands and the same flags. -/
structure SameCommand (s t : State) : Prop where
  params : t.params = s.params
  phase : t.phase = s.phase
  regs : t.regs = s.regs
  cmd : t.cmd = s.cmd
  z : t.status.z = s.status.z
  xs : t.status.xs = s.status.xs
  ys : t.status.ys = s.status.ys

theorem SameCommand.trans {s t u : State} (h : SameCommand s t) (h' : SameCommand t u) : SameCommand s u where
  params := h'.params.trans h.params
  phase := h'.phase.trans h.phase
  regs := h'.regs.trans h.regs
  cmd := h'.cmd.trans h.cmd
  z := h'.z.trans h.z
  xs := h'.xs.trans h.xs
  ys := h'.ys.trans h.ys

theorem sameCommand_advance (s : State) : SameCommand s s.advance := ⟨rfl, rfl, rfl, rfl, rfl, rfl, rfl⟩

theorem SameCommand.x {s t : State} (h : SameCommand s t) (r : Reg) : t.x r = s.x r := by
  simp only [State.x, h.regs]

/-- A host access to a busy engine leaves the command in flight as it is, or is the soft reset. -/
theorem serve_busy_cases {s : State} {c : Word} (a : Access) (hp : s.phase = .busy c) :
    SameCommand s (s.serve a) ∨
      ((s.serve a).phase = .idle ∧ ∃ v, a.names s.params .ctrl ∧ a.op = .write v ∧ v.getLsbD 1 = true) := by
  refine (serve_of_busy (a := a) hp).imp_left ?_
  rintro ⟨hphase, hregs, hcmd, hz, hxs, hys⟩
  exact ⟨serve_params s a, hphase.trans hp.symm, hregs, hcmd, hz, hxs, hys⟩

/-- The turn of an engine with a command in flight completes it. -/
theorem runCommand_completes {c : Word} {s t : State} (h : runCommand c s = .next t) :
    t.phase = .idle ∧ t.status.done = true := by
  cases hd : decode c with
  | ok i =>
    rw [runCommand_ok hd] at h
    exact ⟨exec_phase h, exec_done h⟩
  | error e =>
    rw [runCommand_error hd] at h
    cases h
    exact ⟨rfl, rfl⟩

/-- What a step of a busy engine does: a host access leaves the command in flight, or the engine completes it, or the
engine is reset. -/
theorem step_busy_cases {s t : State} {c : Word} (h : step s = .next t) (hp : s.phase = .busy c) :
    (∃ a rest, s.pending = .bus a :: rest ∧ t.pending = rest ∧ t.resetInput = s.resetInput ∧ SameCommand s t) ∨
    (EngineStep s ∧ t.phase = .idle ∧ t.status.done = true) ∨
    (ResetStep s ∧ t.phase = .idle) := by
  cases hr : s.resetInput with
  | true =>
    obtain ⟨u, rfl, -⟩ := step_of_hardwareReset h (.inr hr)
    exact .inr (.inr ⟨.inl hr, rfl⟩)
  | false =>
    cases hq : s.pending with
    | nil =>
      rw [step_of_busy_turn (.inl hq) hp hr] at h
      exact .inr (.inl ⟨.inl hq, runCommand_completes h⟩)
    | cons e rest =>
      cases e with
      | engine =>
        rw [step_of_busy_turn (.inr ⟨rest, hq⟩) hp hr] at h
        exact .inr (.inl ⟨.inr ⟨rest, hq⟩, runCommand_completes h⟩)
      | resetInput b =>
        obtain ⟨u, rfl, -⟩ := step_of_hardwareReset h (.inl ⟨b, rest, hq⟩)
        exact .inr (.inr ⟨.inr (.inl ⟨b, rest, hq⟩), rfl⟩)
      | bus a =>
        rw [step_of_bus hq, held_of_released (by simpa using hr)] at h
        obtain rfl := Host.Outcome.next.inj h
        rcases serve_busy_cases (s := s.advance) a hp with hsame | ⟨hidle, v, hn, ho, hv⟩
        · exact .inl ⟨a, rest, rfl, by simp [hq], by simpa using hr, (sameCommand_advance s).trans hsame⟩
        · exact .inr (.inr ⟨.inr (.inr ⟨a, rest, v, hq, hn, ho, hv⟩), hidle⟩)

/-! ### No reset ahead -/

/-- With no reset ahead the next step is none. -/
theorem not_resetStep_of_noResetAhead {s : State} (h : NoResetAhead s) : ¬ ResetStep s := by
  obtain ⟨hr, hevent, haccess⟩ := h
  rintro (h | ⟨level, rest, hq⟩ | ⟨a, rest, v, hq, hn, ho, hv⟩)
  · simp [hr] at h
  · exact hevent level (by simp [hq])
  · exact haccess a v (by simp [hq]) ho hv hn

/-- A reset that is not ahead is not ahead later, while the parameters and the reset input stay. -/
theorem noResetAhead_tail {s t : State} {e : Event} (h : NoResetAhead s) (hq : s.pending = e :: t.pending)
    (hparams : t.params = s.params) (hr : t.resetInput = s.resetInput) : NoResetAhead t := by
  obtain ⟨hreleased, hevent, haccess⟩ := h
  have hmem : ∀ e', e' ∈ t.pending → e' ∈ s.pending := fun e' he' => hq ▸ List.mem_cons_of_mem e he'
  exact ⟨hr.trans hreleased, fun level hl => hevent level (hmem _ hl),
    fun a v ha ho hv => hparams ▸ haccess a v (hmem _ ha) ho hv⟩

/-! ### The completion comes (R240) -/

/-- The engine is busy with word c before some k ≤ n steps and idle after k, and with no reset ahead DONE is 1 then. -/
def CompletesWithin (n : Nat) (s : State) (c : Word) : Prop :=
  ∃ k, k ≤ n ∧ ∃ t, Sys2Proof.core.run k s = .next t ∧ t.phase = .idle ∧
    (∀ j, j < k → ∃ u : State, Sys2Proof.core.run j s = .next u ∧ u.phase = .busy c) ∧
    (NoResetAhead s → t.status.done = true)

/-- A busy engine that one step completes or resets completes within one step. -/
theorem completesWithin_of_end {s t : State} {c : Word} (n : Nat) (hp : s.phase = .busy c) (h : step s = .next t)
    (hend : (EngineStep s ∧ t.phase = .idle ∧ t.status.done = true) ∨ (ResetStep s ∧ t.phase = .idle)) :
    CompletesWithin (n + 1) s c := by
  have hbusy : ∀ j, j < 1 → ∃ u : State, Sys2Proof.core.run j s = .next u ∧ u.phase = .busy c := fun j hj => by
    obtain rfl := Nat.lt_one_iff.mp hj
    exact ⟨s, rfl, hp⟩
  rcases hend with ⟨-, hidle, hdone⟩ | ⟨hreset, hidle⟩
  · exact ⟨1, by omega, t, run_succ 0 h, hidle, hbusy, fun _ => hdone⟩
  · exact ⟨1, by omega, t, run_succ 0 h, hidle, hbusy, fun hs => absurd hreset (not_resetStep_of_noResetAhead hs)⟩

/-- A busy engine that one step leaves busy completes one step later than it does from there. -/
theorem CompletesWithin.succ {s t : State} {c : Word} {n : Nat} (h : CompletesWithin n t c) (hp : s.phase = .busy c)
    (hstep : step s = .next t) (hahead : NoResetAhead s → NoResetAhead t) : CompletesWithin (n + 1) s c := by
  obtain ⟨k, hk, u, hrun, hidle, hbusy, hdone⟩ := h
  refine ⟨k + 1, by omega, u, (run_succ k hstep).trans hrun, hidle, fun j hj => ?_, fun hs => hdone (hahead hs)⟩
  cases j with
  | zero => exact ⟨s, rfl, hp⟩
  | succ j =>
    obtain ⟨v, hv, hvp⟩ := hbusy j (by omega)
    exact ⟨v, (run_succ j hstep).trans hv, hvp⟩

/-- A busy engine completes within one step more than there are pending events: each access uses one up. -/
theorem completesWithin_of_pending (events : List Event) : ∀ {s : State} {c : Word}, s.pending = events →
    s.phase = .busy c → CompletesWithin (events.length + 1) s c := by
  induction events with
  | nil =>
    intro s c hq hp
    obtain ⟨t, h⟩ := step_next s
    rcases step_busy_cases h hp with ⟨a, rest, hq', -⟩ | hend
    · simp [hq] at hq'
    · exact completesWithin_of_end _ hp h hend
  | cons e rest ih =>
    intro s c hq hp
    obtain ⟨t, h⟩ := step_next s
    rcases step_busy_cases h hp with ⟨a, rest', hq', ht, hr, hsame⟩ | hend
    · obtain ⟨-, rfl⟩ := List.cons.inj (hq.symm.trans hq')
      exact (ih ht (hsame.phase.trans hp)).succ hp h fun hs => noResetAhead_tail hs (ht.symm ▸ hq) hsame.params hr
    · exact completesWithin_of_end _ hp h hend

/-! ### Host accesses do not reach the command in flight (R61, R65) -/

theorem x_writeAll_congr {s t : State} (h : ∀ r, t.x r = s.x r) (l : List (Reg × Nat)) :
    ∀ r, (t.writeAll l).x r = (s.writeAll l).x r := by
  induction l generalizing s t with
  | nil => exact h
  | cons w l ih => exact ih fun r => by rw [x_setX, x_setX, h]

/-- t and u end the same command with the same registers, flags and error report. -/
structure SameReport (t u : State) : Prop where
  x : ∀ r, t.x r = u.x r
  z : t.status.z = u.status.z
  xs : t.status.xs = u.status.xs
  ys : t.status.ys = u.status.ys
  err : t.status.err = u.status.err
  errCode : t.status.errCode = u.status.errCode
  done : t.status.done = u.status.done
  cmd : t.cmd = u.cmd
  phase : t.phase = u.phase

theorem SameCommand.completeError {s s' : State} (h : SameCommand s s') (e : ErrCode) :
    SameReport (s'.completeError e) (s.completeError e) :=
  ⟨h.x, h.z, h.xs, h.ys, rfl, rfl, rfl, h.cmd, rfl⟩

theorem SameCommand.completeOk {s s' : State} (h : SameCommand s s') (l : List (Reg × Nat)) (f : Option Flags) :
    SameReport (s'.completeOk l f) (s.completeOk l f) := by
  refine ⟨fun r => ?_, ?_, ?_, ?_, rfl, rfl, rfl, ?_, rfl⟩
  · simpa using x_writeAll_congr h.x l r
  · cases f <;> simp [h.z]
  · cases f <;> simp [h.xs]
  · cases f <;> simp [h.ys]
  · simpa using h.cmd

/-- The completion of a word depends only on the command in flight, the operands and the flags. -/
theorem SameCommand.runCommand {s s' : State} (h : SameCommand s s') (c : Word) :
    ∃ u t, runCommand c s = .next u ∧ runCommand c s' = .next t ∧ SameReport t u := by
  cases hd : decode c with
  | ok i =>
    have hres : resultOf i s'.x s'.W = resultOf i s.x s.W := by
      rw [State.W, h.params, show s'.x = s.x from funext h.x]
    rw [runCommand_ok hd, runCommand_ok hd, exec_eq_complete, exec_eq_complete, hres]
    cases resultOf i s.x s.W with
    | ok l f => exact ⟨_, _, rfl, rfl, h.completeOk l f⟩
    | err e => exact ⟨_, _, rfl, rfl, h.completeError e⟩
  | error e => exact ⟨_, _, runCommand_error hd s, runCommand_error hd s', h.completeError .illegal⟩

/-- The accesses before the turn of the engine, none of them a soft reset, leave the command in flight. -/
theorem run_accesses_of_busy {events : List Event} (accesses : List Access) : ∀ {s : State} {c : Word},
    s.phase = .busy c → s.resetInput = false → s.pending = accesses.map Event.bus ++ events →
    (∀ a ∈ accesses, ∀ v, a.op = .write v → v.getLsbD 1 = true → ¬ a.names s.params .ctrl) →
    ∃ t, Sys2Proof.core.run accesses.length s = .next t ∧ SameCommand s t ∧ t.resetInput = false ∧
      t.pending = events := by
  induction accesses with
  | nil => exact fun {s c} _ hr hq _ => ⟨s, rfl, ⟨rfl, rfl, rfl, rfl, rfl, rfl, rfl⟩, hr, hq⟩
  | cons a accesses ih =>
    intro s c hp hr hq hno
    obtain ⟨t, h⟩ := step_next s
    rcases step_busy_cases h hp with ⟨a', rest, hq', ht, hr', hsame⟩ | ⟨hturn, -⟩ | ⟨hreset, -⟩
    case inl =>
      obtain ⟨-, rfl⟩ := List.cons.inj (hq.symm.trans hq')
      obtain ⟨u, hrun, hsame', hru, hpu⟩ := ih (hsame.phase.trans hp) (hr'.trans hr) ht fun a' ha' => by
        rw [hsame.params]
        exact hno a' (List.mem_cons_of_mem a ha')
      exact ⟨u, (run_succ _ h).trans hrun, hsame.trans hsame', hru, hpu⟩
    case inr.inl => simp [EngineStep, hq] at hturn
    case inr.inr =>
      exfalso
      rcases hreset with h | ⟨level, rest, h⟩ | ⟨a', rest, v, h, hn, ho, hv⟩
      · simp [hr] at h
      · simp [hq] at h
      · obtain ⟨ha, -⟩ := List.cons.inj (hq.symm.trans h)
        cases ha
        exact hno a List.mem_cons_self v ho hv hn

/-! ### The obligations -/

/-- Settles O15, by induction on the pending events. -/
theorem acceptedCommandCompletes : Obligations.AcceptedCommandCompletes :=
  fun s _ hp => completesWithin_of_pending s.pending rfl hp

/-- Settles O16: of the steps of a busy engine only a host access leaves it busy. -/
theorem busyKeepsOperands : Obligations.BusyKeepsOperands := by
  intro s t c d h hp hpt
  rcases step_busy_cases h hp with ⟨a, rest, -, -, -, hsame⟩ | ⟨-, hidle, -⟩ | ⟨-, hidle⟩
  · have hphase := hpt.symm.trans (hsame.phase.trans hp)
    exact ⟨Phase.busy.inj hphase, hsame.regs⟩
  · exact absurd (hidle.symm.trans hpt) (by simp)
  · exact absurd (hidle.symm.trans hpt) (by simp)

/-- Settles O17: the accesses leave the command in flight, and its completion depends on nothing else. -/
theorem resultIgnoresBusyAccesses : Obligations.ResultIgnoresBusyAccesses := by
  intro s c accesses hp hr hq hno
  obtain ⟨s', hrun, hsame, hr', hq'⟩ := run_accesses_of_busy accesses hp hr hq hno
  obtain ⟨u, t, hu, ht, hreport⟩ := (hsame.trans (sameCommand_advance s')).runCommand c
  have hturn : step s' = .next t :=
    (step_of_busy_turn (.inr ⟨[], hq'⟩) (hsame.phase.trans hp) hr').trans ht
  refine ⟨t, u, (run_add _ 1 hrun).trans (run_succ 0 hturn), fun i hd => ?_, fun e hd => ?_, hreport.x, hreport.z,
    hreport.xs, hreport.ys, hreport.err, hreport.errCode, hreport.done, hreport.cmd, hreport.phase⟩
  · rwa [runCommand_ok hd] at hu
  · rw [runCommand_error hd] at hu
    obtain rfl := Host.Outcome.next.inj hu
    exact completeError_failed s .illegal

/-- Settles O18. -/
theorem busyEndsByCompletionOrReset : Obligations.BusyEndsByCompletionOrReset := by
  intro s t c h hp hidle
  rcases step_busy_cases h hp with ⟨a, rest, -, -, -, hsame⟩ | ⟨hturn, -, hdone⟩ | ⟨hreset, -⟩
  · exact absurd (hidle.symm.trans (hsame.phase.trans hp)) (by simp)
  · exact .inl ⟨hturn, hdone⟩
  · exact .inr hreset

end Sys2Proof.Machine
end

section
/-! Proofs about which registers and flags a step can change (10_state.md R21, R33). -/

namespace Sys2Proof.Machine

/-! ### What a command writes (R100 to R102, R121 to R125, R150, R151, R172 to R175) -/

@[simp] theorem regPlus_one (i : Reg) : regPlus i 1 = i + 1 := by
  apply Fin.ext
  simp [regPlus, Fin.val_add]

@[simp] theorem regPlus_two (i : Reg) : regPlus i 2 = i + 2 := by
  apply Fin.ext
  simp [regPlus, Fin.val_add]

/-- A successful command writes only registers that its rule names. -/
theorem resultOf_ok_named {i : Instr} {x : Reg → Nat} {W : Nat} {l : List (Reg × Nat)} {f : Option Flags}
    (h : resultOf i x W = .ok l f) : ∀ r ∈ l.map Prod.fst, r ∈ namedRegs i := by
  have hone : ∀ {rd : Reg} {v : Nat}, okOne rd v = .ok l f → ∀ r ∈ l.map Prod.fst, r ∈ [rd] := by
    intro rd v he
    obtain ⟨rfl, -⟩ := Result.ok.inj he
    simp
  have hmont : ∀ {rd : Reg} {n v : Nat} {ds : List Nat}, montResult rd n ds v = .ok l f →
      ∀ r ∈ l.map Prod.fst, r ∈ [rd] := by
    intro rd n v ds he
    obtain ⟨-, rfl, -⟩ := montResult_ok_lt he
    simp
  cases i with
  | nop => obtain ⟨rfl, -⟩ := Result.ok.inj h; simp
  | mov | seti | gcd => exact hone h
  | montmul | tomont | frommont | montr2 => exact hmont h
  | modmul | modexp =>
    simp only [resultOf] at h
    split at h
    · exact absurd h (by simp)
    · exact hone h
  | modinv =>
    simp only [resultOf] at h
    split_ifs at h
    exact hone h
  | gcdstep =>
    simp only [resultOf] at h
    split_ifs at h
    · obtain ⟨rfl, -⟩ := Result.ok.inj h; simp
    · obtain ⟨rfl, -⟩ := Result.ok.inj h; simp [namedRegs]
  | egcd =>
    simp only [resultOf] at h
    split_ifs at h
    obtain ⟨rfl, -⟩ := Result.ok.inj h
    simp [namedRegs]

/-- What a successful or failed command changes: registers only by a result with no error that names them, flags only
by such a result of a command other than NOP. -/
theorem exec_changes {i : Instr} {s t : State} (h : exec i s = .next t) :
    (∀ r, t.x r ≠ s.x r → firstError s i = none ∧ r ∈ namedRegs i) ∧
    ((t.status.z ≠ s.status.z ∨ t.status.xs ≠ s.status.xs ∨ t.status.ys ≠ s.status.ys) →
      firstError s i = none ∧ i ≠ .nop) := by
  rcases exec_cases_firstError i s with ⟨e, -, hexec⟩ | ⟨l, f, hfirst, hres, hexec⟩
  · obtain rfl := Host.Outcome.next.inj (hexec.symm.trans h)
    simp
  · obtain rfl := Host.Outcome.next.inj (hexec.symm.trans h)
    refine ⟨fun r hr => ⟨hfirst, ?_⟩, fun hflags => ⟨hfirst, ?_⟩⟩
    · by_contra hnot
      exact hr (completeOk_regsKept s l f r fun hmem => hnot (resultOf_ok_named hres r hmem))
    · rintro rfl
      obtain ⟨rfl, rfl⟩ := Result.ok.inj hres
      simp at hflags

/-! ### What a host access changes (R21, R53) -/

/-- A host access that is no soft reset changes no flag, and a register only by a write of one of its limbs while
idle. -/
theorem serve_changes {s : State} {a : Access}
    (hno : ∀ v, a.names s.params .ctrl → a.op = .write v → v.getLsbD 1 = false) :
    (∀ r, (s.serve a).x r ≠ s.x r → s.phase = .idle ∧ ∃ j v, a.names s.params (.limb r j) ∧ a.op = .write v) ∧
    (s.serve a).status.z = s.status.z ∧ (s.serve a).status.xs = s.status.xs ∧
      (s.serve a).status.ys = s.status.ys := by
  rcases serve_cases s a with ⟨-, he⟩ | ⟨-, off, he⟩ | ⟨off, t, -, -, he⟩ | ⟨off, t, v, hn, ho, he⟩ <;> rw [he]
  · simp
  · simp
  · rcases readTarget_status t s with hst | ⟨-, -, hst⟩ <;> simp [hst]
  · cases t with
    | id | config | status => simp [writeTarget]
    | cmd => cases hb : s.busy <;> simp [writeTarget, State.issue, hb]
    | ctrl => rw [writeTarget, writeCtrl_of_not_srst (hno v hn ho)]; simp
    | limb i j =>
      cases hb : s.busy with
      | true => simp [writeTarget, hb]
      | false =>
        simp only [writeTarget, hb, Bool.false_eq_true, if_false, answer_x, answer_status, setLimb_status, and_self,
          and_true]
        intro r hr
        obtain rfl : r = i := by
          by_contra hne
          exact hr (setLimb_regsKept s i j v r (by simpa using hne))
        exact ⟨(busy_eq_false_iff s).mp hb, j, v, hn, ho⟩

/-! ### The obligation -/

/-- Settles O19: of the steps that are no reset, only a completion and a host access change anything. -/
theorem registersAndFlagsChangeOnlyAsNamed : Obligations.RegistersAndFlagsChangeOnlyAsNamed := by
  intro s t h hreset
  rcases step_cases h with ⟨b, rest, hq, -⟩ | ⟨a, rest, hq, rfl⟩ | ⟨-, hr, -⟩ | ⟨-, -, -, rfl⟩ |
    ⟨c, i, hn, -, hp, hd, hexec⟩ | ⟨c, e, -, -, -, -, rfl⟩
  · exact absurd (.inr (.inl ⟨b, rest, hq⟩)) hreset
  · have hr : s.resetInput = false := Bool.eq_false_iff.mpr fun hr => hreset (.inl hr)
    rw [held_of_released (by simpa using hr)]
    obtain ⟨hregs, hz, hxs, hys⟩ := serve_changes (s := s.advance) (a := a) fun v hn ho =>
      Bool.eq_false_iff.mpr fun hv => hreset (.inr (.inr ⟨a, rest, v, hq, hn, ho, hv⟩))
    refine ⟨fun r hr => ?_, fun hflags => ?_⟩
    · obtain ⟨hidle, j, v, hn, ho⟩ := hregs r hr
      exact .inr ⟨hidle, a, rest, j, v, hq, hn, ho⟩
    · simp [hz, hxs, hys] at hflags
  · exact absurd (.inl hr) hreset
  · simp
  · obtain ⟨hregs, hflags⟩ := exec_changes hexec
    refine ⟨fun r hr => ?_, fun hf => ?_⟩
    · obtain ⟨hfirst, hnamed⟩ := hregs r hr
      exact .inl ⟨c, i, hp, hd, hn, hfirst, hnamed⟩
    · obtain ⟨hfirst, hnop⟩ := hflags hf
      exact ⟨c, i, hp, hd, hn, hfirst, hnop⟩
  · simp

end Sys2Proof.Machine
end

section
/-! Proofs about the loop of GCDSTEP and about EGCD: the recursion EG, its bounds, its iterative form, and the group of
registers that it fills (41_gcd_stepper.md R122 to R124, R126). -/

namespace Sys2Proof.Machine

/-! ### The loop of GCDSTEP (R126 law 5) -/

/-- A round of the loop whose command answers t leaves the other rounds to be run from t. -/
theorem repeatCommand_succ {i : Instr} {s t : State} (k : Nat) (h : exec i s = .next t) :
    repeatCommand i (k + 1) s = repeatCommand i k t := by
  rw [repeatCommand, h]

section gcdstep
variable {rd rs1 rs2 : Reg} (h1 : rd ≠ rs1) (h2 : rd ≠ rs2) (h12 : rs1 ≠ rs2)
include h1 h2 h12

/-- One GCDSTEP keeps the gcd of the pair, leaves a smaller B or B = 0, sets Z exactly when B is 0, and changes no
register but its three. -/
theorem exec_gcdstep_keeps_gcd (s : State) : ∃ t, exec (.gcdstep rd rs1 rs2) s = .next t ∧
    Nat.gcd (t.x rs1) (t.x rs2) = Nat.gcd (s.x rs1) (s.x rs2) ∧ (t.x rs2 < s.x rs2 ∨ t.x rs2 = 0) ∧
    (t.status.z = true ↔ t.x rs2 = 0) ∧ RegsKeptExcept s t [rs1, rs2, rd] := by
  obtain ⟨-, -, hreduced, hdivisor⟩ := gcdstepReduces rd rs1 rs2 s
  by_cases hb : s.x rs2 = 0
  · obtain ⟨t, hexec, hx, hsucc⟩ := hreduced h1 h2 h12 hb
    exact ⟨t, hexec, by rw [hx, hx], .inr ((hx rs2).trans hb), by simp [hsucc.z, hx, hb], fun r _ => hx r⟩
  · obtain ⟨t, hexec, hx1, hx2, -, hkept, hsucc⟩ := hdivisor h1 h2 h12 hb
    refine ⟨t, hexec, ?_, .inl ?_, by simp [hsucc.z, hx2], hkept⟩
    · rw [hx1, hx2, Nat.gcd_comm, ← Nat.gcd_rec, Nat.gcd_comm]
    · rw [hx2]
      exact Nat.mod_lt _ (Nat.pos_of_ne_zero hb)

/-- The loop keeps the gcd of the pair and every other register, and after a round Z says whether B is 0. -/
theorem repeat_gcdstep_keeps_gcd (k : Nat) : ∀ {s t : State}, repeatCommand (.gcdstep rd rs1 rs2) k s = .next t →
    Nat.gcd (t.x rs1) (t.x rs2) = Nat.gcd (s.x rs1) (s.x rs2) ∧ RegsKeptExcept s t [rs1, rs2, rd] ∧
    ((s.status.z = true ↔ s.x rs2 = 0) ∨ 1 ≤ k → (t.status.z = true ↔ t.x rs2 = 0)) := by
  induction k with
  | zero =>
    intro s t h
    obtain rfl : s = t := Host.Outcome.next.inj h
    exact ⟨rfl, fun _ _ => rfl, fun h => h.resolve_right (by decide)⟩
  | succ k ih =>
    intro s t h
    obtain ⟨u, hexec, hgcd, -, hz, hkept⟩ := exec_gcdstep_keeps_gcd h1 h2 h12 s
    rw [repeatCommand_succ k hexec] at h
    obtain ⟨hgcd', hkept', hz'⟩ := ih h
    exact ⟨hgcd'.trans hgcd, fun r hr => (hkept' r hr).trans (hkept r hr), fun _ => hz' (.inl hz)⟩

/-- B falls at every round, so Z = 1 is reached. -/
theorem repeat_gcdstep_reaches_z (b : Nat) : ∀ s : State, s.x rs2 = b →
    ∃ k t, 1 ≤ k ∧ repeatCommand (.gcdstep rd rs1 rs2) k s = .next t ∧ t.status.z = true := by
  induction b using Nat.strong_induction_on with
  | _ b ih =>
    intro s hs
    obtain ⟨t, hexec, -, hlt, hz, -⟩ := exec_gcdstep_keeps_gcd h1 h2 h12 s
    rcases hlt with hlt | hzero
    · obtain ⟨k, u, -, hrun, hzu⟩ := ih (t.x rs2) (hs ▸ hlt) t rfl
      exact ⟨k + 1, u, by omega, (repeatCommand_succ k hexec).trans hrun, hzu⟩
    · exact ⟨1, t, le_rfl, repeatCommand_succ 0 hexec, hz.mpr hzero⟩

end gcdstep

/-! ### The iterative form of EG (R124) -/

/-- The loop, from any values of its six variables, applies EG's coefficients to them. -/
theorem egIterative_eq (fuel : Nat) : ∀ (r0 r1 : Nat) (s0 s1 t0 t1 : Int), r1 ≤ fuel →
    egIterative fuel r0 r1 s0 s1 t0 t1 =
      ((eg r1 r0).1, (eg r1 r0).2.1 * s1 + (eg r1 r0).2.2 * s0, (eg r1 r0).2.1 * t1 + (eg r1 r0).2.2 * t0) := by
  induction fuel with
  | zero =>
    intro r0 r1 s0 s1 t0 t1 h
    obtain rfl := Nat.le_zero.mp h
    simp [egIterative]
  | succ fuel ih =>
    intro r0 r1 s0 s1 t0 t1 h
    by_cases hr : r1 = 0
    · simp [egIterative, hr]
    · have hpos := Nat.pos_of_ne_zero hr
      have hmod : r0 - r0 / r1 * r1 = r0 % r1 := by rw [Nat.mul_comm, ← Nat.mod_def]
      have hlt := Nat.mod_lt r0 hpos
      rw [egIterative, if_neg hr, hmod, ih _ _ _ _ _ _ (by omega), eg_of_pos hpos]
      ext <;> simp <;> ring

/-! ### The signed value of two's complement (R123) -/

/-- A value that fits in W bits is read back from its two's complement. -/
theorem signedValue_tc {W : Nat} {v : Int} (hW : 1 ≤ W) (h : v.natAbs < 2 ^ (W - 1)) : signedValue W (tc W v) = v := by
  have hpow : 2 ^ W = 2 * 2 ^ (W - 1) := by rw [← pow_succ']; congr 1; omega
  unfold signedValue
  rcases lt_or_ge v 0 with hneg | hnonneg
  · have htc := tc_of_neg (W := W) hneg (by omega)
    rw [if_neg (by omega), htc]
    omega
  · have htc := tc_of_nonneg (W := W) hnonneg (by omega)
    rw [if_pos (by omega), htc]
    omega

/-! ### The group of EGCD (R123) -/

/-- With rd ≤ 13 the group holds g and the two coefficients, and the flags are EGCD's. -/
theorem exec_egcd_of_fits {rd : Reg} (hrd : rd.val ≤ 13) (rs1 rs2 : Reg) (s : State) :
    ∃ t, exec (.egcd rd rs1 rs2) s = .next t ∧ t.x rd = (eg (s.x rs1) (s.x rs2)).1 ∧
      t.x (rd + 1) = tc s.W (eg (s.x rs1) (s.x rs2)).2.1 ∧ t.x (rd + 2) = tc s.W (eg (s.x rs1) (s.x rs2)).2.2 ∧
      RegsKeptExcept s t [rd, rd + 1, rd + 2] ∧
      Succeeded s t ((eg (s.x rs1) (s.x rs2)).1 == 0) (decide ((eg (s.x rs1) (s.x rs2)).2.1 < 0))
        (decide ((eg (s.x rs1) (s.x rs2)).2.2 < 0)) := by
  have h01 : rd ≠ rd + 1 := by simp
  have h02 : rd ≠ rd + 2 := by simp
  have h12 : rd + 1 ≠ rd + 2 := by simp
  obtain ⟨hx0, hx1, hx2⟩ := writeAll_three_x h01 h02 h12 s (eg (s.x rs1) (s.x rs2)).1
    (tc s.W (eg (s.x rs1) (s.x rs2)).2.1) (tc s.W (eg (s.x rs1) (s.x rs2)).2.2)
  rw [exec_eq_complete, resultOf, if_pos ((egcdOperandsOk_iff rd).mpr hrd), regPlus_one, regPlus_two, complete_ok]
  exact ⟨_, rfl, (completeOk_x ..).trans hx0, (completeOk_x ..).trans hx1, (completeOk_x ..).trans hx2,
    completeOk_regsKept s _ _, completeOk_succeeded s _ (egcdFlags _ _ _)⟩

/-! ### The obligations -/

/-- Settles O28: the loop keeps the gcd, and where B is 0 the gcd is A. -/
theorem gcdstepLoopReachesGcd : Obligations.GcdstepLoopReachesGcd := by
  intro rd rs1 rs2 s h1 h2 h12
  refine ⟨repeat_gcdstep_reaches_z h1 h2 h12 _ s rfl, fun k t hk hrun hz => ?_⟩
  obtain ⟨hgcd, hkept, hiff⟩ := repeat_gcdstep_keeps_gcd h1 h2 h12 k hrun
  have hb := (hiff (.inr hk)).mp hz
  rw [hb, Nat.gcd_zero_right] at hgcd
  exact ⟨hgcd, hb, hkept⟩

/-- Settles O29, by the check on rd and the three writes of the group. -/
theorem egcdWritesGroup : Obligations.EgcdWritesGroup := by
  intro rd rs1 rs2 s
  refine ⟨decodeOfEncode (.egcd rd rs1 rs2), fun hrd => ?operand, fun hrd => ?group⟩
  case operand =>
    have hcheck : egcdOperandsOk rd ≠ true := by rw [Ne, egcdOperandsOk_iff]; omega
    rw [exec_eq_complete, resultOf, if_neg hcheck]
    exact completeError_of s .operand
  case group =>
    obtain ⟨t, hexec, hg, hs, ht, hkept, hsucc⟩ := exec_egcd_of_fits hrd rs1 rs2 s
    refine ⟨t, hexec, fun g u v heg => ?_⟩
    rw [heg] at hg hs ht hsucc
    exact ⟨hg, hs, ht, hkept, hsucc⟩

/-- Settles O30. -/
theorem egIsTheRecursion : Obligations.EgIsTheRecursion := by
  refine ⟨eg_zero, fun a b g s1 t1 ha heg => ?_⟩
  rw [eg_of_pos (Nat.pos_of_ne_zero ha), heg]

/-- Settles O31: g is the gcd, and the bounds are those of `eg_bounds_max`. -/
theorem egCoefficientBounds : Obligations.EgCoefficientBounds := by
  intro a b g s t ha _ heg
  have hg := eg_fst a b
  have hbounds := eg_bounds_max (b := b) ha
  rw [heg] at hg hbounds
  rwa [← hg] at hbounds

/-- Settles O32: from (0, 1) and (1, 0) the loop's combination of EG's coefficients is the pair of them. -/
theorem egIterativeLoopAgrees : Obligations.EgIterativeLoopAgrees := by
  intro a b fuel h
  rw [egIterative_eq fuel b a 0 1 1 0 h]
  simp

/-- Settles O33: both coefficients fit in W bits, so Bézout's identity for EG is one for the registers. -/
theorem egcdRegistersSatisfyBezout : Obligations.EgcdRegistersSatisfyBezout := by
  intro rd rs1 rs2 s hrd ha hb
  obtain ⟨t, hexec, hg, hs, ht, -, hsucc⟩ := exec_egcd_of_fits hrd rs1 rs2 s
  have hW := W_pos s.params
  obtain ⟨hfits, hfitt⟩ := eg_fits (W := s.W) ((by decide : 2 ≤ 64).trans hW) ha hb
  have hW1 : 1 ≤ s.W := (by decide : 1 ≤ 64).trans hW
  rw [eg_fst] at hg
  refine ⟨t, hexec, hg, ?_, ?_, ?_⟩
  · rw [hs, ht, hg, signedValue_tc hW1 hfits, signedValue_tc hW1 hfitt]
    exact eg_bezout _ _
  · rw [hsucc.xs, decide_eq_true_eq, hs, signedValue_tc hW1 hfits]
  · rw [hsucc.ys, decide_eq_true_eq, ht, signedValue_tc hW1 hfitt]

end Sys2Proof.Machine
end

section
/-! Proofs about chains of commands of the modular_exponentiation_engine: exponents that add, and RSA with the modulus
3233 (42_modexp.md R150, R151, R153). -/

namespace Sys2Proof.Machine

/-! ### What MODMUL and MODEXP answer -/

theorem exec_modmul_of_ne_zero (rd rs1 rs2 : Reg) {rs3 : Reg} {s : State} (hn : s.x rs3 ≠ 0) :
    ∃ t, exec (.modmul rd rs1 rs2 rs3) s = .next t ∧ t.x rd = s.x rs1 * s.x rs2 % s.x rs3 ∧
      RegsKeptExcept s t [rd] := by
  obtain ⟨-, -, h⟩ := modmulWritesProduct rd rs1 rs2 rs3 s
  obtain ⟨t, hexec, hval, hkept, -⟩ := h hn
  exact ⟨t, hexec, hval, hkept⟩

theorem exec_modexp_of_ne_zero (rd rs1 rs2 : Reg) {rs3 : Reg} {s : State} (hn : s.x rs3 ≠ 0) :
    ∃ t, exec (.modexp rd rs1 rs2 rs3) s = .next t ∧ t.x rd = s.x rs1 ^ s.x rs2 % s.x rs3 ∧
      RegsKeptExcept s t [rd] := by
  obtain ⟨-, -, h⟩ := modexpWritesPower rd rs1 rs2 rs3 s
  obtain ⟨t, hexec, hval, hkept, -⟩ := h hn
  exact ⟨t, hexec, hval, hkept⟩

/-- A register other than the one destination is unchanged. -/
theorem RegsKeptExcept.x_of_ne {s t : State} {rd r : Reg} (h : RegsKeptExcept s t [rd]) (hne : rd ≠ r) :
    t.x r = s.x r :=
  h r (by simpa using hne.symm)

/-! ### Exponents that are 1 modulo p - 1 (R153 law 4) -/

/-- Fermat's little theorem for a power that is one more than a multiple of p - 1. -/
theorem pow_modEq_self_of_prime {p k : Nat} (hp : p.Prime) (h : p - 1 ∣ k) (m : Nat) : m ^ (k + 1) ≡ m [MOD p] := by
  have := Fact.mk hp
  obtain ⟨j, rfl⟩ := h
  rw [← ZMod.natCast_eq_natCast_iff, Nat.cast_pow, pow_succ, pow_mul]
  by_cases hm : (m : ZMod p) = 0
  · rw [hm, mul_zero]
  · rw [ZMod.pow_card_sub_one_eq_one hm, one_pow, one_mul]

/-- A reduced power raised to a power, reduced, is the power of the product. -/
theorem pow_mod_pow_mod (a e d n : Nat) : (a ^ e % n) ^ d % n = a ^ (e * d) % n := by
  rw [← Nat.pow_mod, ← pow_mul]

/-- Decrypting undoes encrypting: 3233 = 61 * 53, and 17 * 2753 - 1 is a multiple of 60 and of 52. -/
theorem rsa_pow_pow {m : Nat} (hm : m < 3233) : (m ^ 17 % 3233) ^ 2753 % 3233 = m := by
  have hmod : m ^ (17 * 2753) ≡ m [MOD 3233] := by
    rw [show 17 * 2753 = 46800 + 1 from rfl, show 3233 = 61 * 53 from rfl]
    exact (Nat.modEq_and_modEq_iff_modEq_mul (by decide)).mp
      ⟨pow_modEq_self_of_prime (by norm_num) (by decide) m, pow_modEq_self_of_prime (by norm_num) (by decide) m⟩
  calc (m ^ 17 % 3233) ^ 2753 % 3233 = m ^ (17 * 2753) % 3233 := pow_mod_pow_mod m 17 2753 3233
    _ = m % 3233 := hmod
    _ = m := Nat.mod_eq_of_lt hm

/-! ### The obligations -/

/-- Settles O37: each command's value, and the product of two powers of one base. -/
theorem modexpOfSum : Obligations.ModexpOfSum := by
  intro s t1 t2 t3 u ra rb1 rb2 rb rn p q r o hn hsum hpa hpb hpn hqn hqp h1 h2 h3 hu
  obtain ⟨t1', h1', hv1, hk1⟩ := exec_modexp_of_ne_zero p ra rb1 hn
  obtain rfl := Host.Outcome.next.inj (h1'.symm.trans h1)
  have hn1 := hk1.x_of_ne hpn
  obtain ⟨t2', h2', hv2, hk2⟩ := exec_modexp_of_ne_zero q ra rb2 (hn1.symm ▸ hn)
  obtain rfl := Host.Outcome.next.inj (h2'.symm.trans h2)
  have hn2 := (hk2.x_of_ne hqn).trans hn1
  obtain ⟨t3', h3', hv3, -⟩ := exec_modmul_of_ne_zero r p q (hn2.symm ▸ hn)
  obtain rfl := Host.Outcome.next.inj (h3'.symm.trans h3)
  obtain ⟨u', hu', hvu, -⟩ := exec_modexp_of_ne_zero o ra rb hn
  obtain rfl := Host.Outcome.next.inj (hu'.symm.trans hu)
  rw [hv3, hn2, hk2.x_of_ne hqp, hv1, hv2, hk1.x_of_ne hpa, hk1.x_of_ne hpb, hn1, hvu, hsum, pow_add, ← Nat.mul_mod]

/-- Settles O38. -/
theorem rsaRoundTrip : Obligations.RsaRoundTrip := by
  intro s rc rm re rd rn ro hn he hd hm hcd hcn
  obtain ⟨t, ht, hvt, hkt⟩ := exec_modexp_of_ne_zero rc rm re (s := s) (rs3 := rn) (by rw [hn]; decide)
  have hnt := (hkt.x_of_ne hcn).trans hn
  obtain ⟨u, hu, hvu, -⟩ := exec_modexp_of_ne_zero ro rc rd (s := t) (rs3 := rn) (by rw [hnt]; decide)
  refine ⟨t, u, ht, hu, ?_⟩
  rw [hvu, hvt, hkt.x_of_ne hcd, hnt, hn, he, hd]
  exact rsa_pow_pow hm

end Sys2Proof.Machine
end

section
/-! Proofs about the Montgomery form: the inverse of the radix, the two conversions, the product through the form, and
the reduction that computes MONTMUL's value (43_montgomery.md R170, R172 to R174, R176, R177). -/

namespace Sys2Proof.Machine

/-! ### What TOMONT, FROMMONT and MONTMUL answer -/

section conversions
variable {rd rs1 rs2 rs3 : Reg} {s : State} (hodd : s.x rs3 % 2 = 1) (ha : s.x rs1 < s.x rs3)
include hodd ha

theorem exec_tomont_of_odd : ∃ t, exec (.tomont rd rs1 rs3) s = .next t ∧
    t.x rd = s.x rs1 * 2 ^ s.W % s.x rs3 ∧ RegsKeptExcept s t [rd] ∧ t.W = s.W := by
  rw [exec_eq_complete, resultOf]
  obtain ⟨t, hexec, hval, hkept, hsucc⟩ := complete_montResult (ds := [s.x rs1]) hodd (by simpa using ha) s rd
    (s.x rs1 * 2 ^ s.W % s.x rs3)
  exact ⟨t, hexec, hval, hkept, congrArg Params.W hsucc.frame.params⟩

theorem exec_frommont_of_odd : ∃ t, exec (.frommont rd rs1 rs3) s = .next t ∧
    t.x rd = s.x rs1 * radixInverse s.W (s.x rs3) % s.x rs3 ∧ RegsKeptExcept s t [rd] ∧ t.W = s.W := by
  rw [exec_eq_complete, resultOf]
  obtain ⟨t, hexec, hval, hkept, hsucc⟩ := complete_montResult (ds := [s.x rs1]) hodd (by simpa using ha) s rd
    (s.x rs1 * radixInverse s.W (s.x rs3) % s.x rs3)
  exact ⟨t, hexec, hval, hkept, congrArg Params.W hsucc.frame.params⟩

theorem exec_montmul_of_odd (hb : s.x rs2 < s.x rs3) : ∃ t, exec (.montmul rd rs1 rs2 rs3) s = .next t ∧
    t.x rd = s.x rs1 * s.x rs2 * radixInverse s.W (s.x rs3) % s.x rs3 ∧ RegsKeptExcept s t [rd] ∧ t.W = s.W := by
  rw [exec_eq_complete, resultOf]
  obtain ⟨t, hexec, hval, hkept, hsucc⟩ := complete_montResult (ds := [s.x rs1, s.x rs2]) hodd (by simp [ha, hb]) s rd
    (s.x rs1 * s.x rs2 * radixInverse s.W (s.x rs3) % s.x rs3)
  exact ⟨t, hexec, hval, hkept, congrArg Params.W hsucc.frame.params⟩

end conversions

/-! ### The radix and its inverse cancel (R170, R177) -/

section radix
variable {W n : Nat} (hodd : n % 2 = 1)
include hodd

/-- R^-1 times R is 1 modulo n. -/
theorem radixInverse_mul_modEq : radixInverse W n * 2 ^ W ≡ 1 [MOD n] := by
  rw [Nat.mul_comm]
  exact radix_mul_inverse W hodd

/-- The form of a value, converted back. -/
theorem mul_radix_mul_radixInverse {a : Nat} (ha : a < n) : a * 2 ^ W % n * radixInverse W n % n = a := by
  have h : a * 2 ^ W % n * radixInverse W n ≡ a [MOD n] :=
    calc a * 2 ^ W % n * radixInverse W n ≡ a * 2 ^ W * radixInverse W n [MOD n] := (Nat.mod_modEq _ _).mul_right _
      _ = a * (radixInverse W n * 2 ^ W) := by ring
      _ ≡ a * 1 [MOD n] := (radixInverse_mul_modEq hodd).mul_left a
      _ = a := mul_one a
  exact Nat.ModEq.eq_of_lt_of_lt ((Nat.mod_modEq _ _).trans h) (Nat.mod_lt _ (by omega)) ha

/-- The product of two forms, multiplied by R^-1 and converted back, is the product. -/
theorem montgomery_product (a b : Nat) :
    (a * 2 ^ W % n) * (b * 2 ^ W % n) * radixInverse W n % n * radixInverse W n % n = a * b % n := by
  have h : (a * 2 ^ W % n) * (b * 2 ^ W % n) * radixInverse W n % n * radixInverse W n ≡ a * b [MOD n] :=
    calc (a * 2 ^ W % n) * (b * 2 ^ W % n) * radixInverse W n % n * radixInverse W n
        ≡ (a * 2 ^ W % n) * (b * 2 ^ W % n) * radixInverse W n * radixInverse W n [MOD n] :=
          (Nat.mod_modEq _ _).mul_right _
      _ ≡ (a * 2 ^ W) * (b * 2 ^ W) * radixInverse W n * radixInverse W n [MOD n] :=
          (((Nat.mod_modEq _ _).mul (Nat.mod_modEq _ _)).mul_right _).mul_right _
      _ = a * b * ((radixInverse W n * 2 ^ W) * (radixInverse W n * 2 ^ W)) := by ring
      _ ≡ a * b * (1 * 1) [MOD n] :=
          ((radixInverse_mul_modEq hodd).mul (radixInverse_mul_modEq hodd)).mul_left _
      _ = a * b := by ring
  exact h

/-- For n ≥ 3 the inverse is not 0. -/
theorem radixInverse_pos (hn : 3 ≤ n) : 1 ≤ radixInverse W n := by
  by_contra h
  have hmul := radix_mul_inverse W hodd
  rw [show radixInverse W n = 0 by omega, mul_zero, Nat.zero_mod, Nat.mod_eq_of_lt (by omega)] at hmul
  exact absurd hmul (by decide)

end radix

/-! ### Montgomery reduction (R176) -/

section reduction
variable {R n n' T m : Nat}

/-- The multiple of n that is added to T makes it divisible by R. -/
theorem reduction_exact (hn' : (n * n' + 1) % R = 0) (hm : m = T % R * n' % R) : (T + m * n) % R = 0 := by
  have h : T + m * n ≡ T * 0 [MOD R] :=
    calc T + m * n ≡ T + T * n' * n [MOD R] := by
          refine (Nat.ModEq.refl T).add (Nat.ModEq.mul_right n ?_)
          rw [hm]
          exact (Nat.mod_modEq _ _).trans ((Nat.mod_modEq T R).mul_right n')
      _ = T * (n * n' + 1) := by ring
      _ ≡ T * 0 [MOD R] := Nat.ModEq.mul_left T (by rw [Nat.ModEq, hn', Nat.zero_mod])
  rw [h, mul_zero, Nat.zero_mod]

/-- The quotient is below 2n, since T < n * n < R * n and m < R. -/
theorem reduction_lt {a b : Nat} (hn : n < R) (ha : a < n) (hb : b < n) (hm : m < R) :
    (a * b + m * n) / R < 2 * n := by
  rw [Nat.div_lt_iff_lt_mul (by omega)]
  have hT : a * b < R * n := (Nat.mul_lt_mul'' ha hb).trans (Nat.mul_lt_mul_of_pos_right hn (by omega))
  have hmn : m * n < R * n := Nat.mul_lt_mul_of_pos_right hm (by omega)
  calc a * b + m * n < R * n + R * n := Nat.add_lt_add hT hmn
    _ = 2 * n * R := by ring

/-- A value below 2n is reduced by one subtraction. -/
theorem mod_eq_sub_of_lt_two_mul {t : Nat} (h : t < 2 * n) : t % n = if n ≤ t then t - n else t := by
  split
  · rw [Nat.mod_eq_sub_mod ‹_›, Nat.mod_eq_of_lt (by omega)]
  · exact Nat.mod_eq_of_lt (by omega)

/-- Modulo n the exact quotient is T * R^-1. -/
theorem reduction_mod {W : Nat} (hodd : n % 2 = 1) (hexact : (T + m * n) % 2 ^ W = 0) :
    (T + m * n) / 2 ^ W % n = T * radixInverse W n % n := by
  have hmul : (T + m * n) / 2 ^ W * 2 ^ W = T + m * n := Nat.div_mul_cancel (Nat.dvd_of_mod_eq_zero hexact)
  refine radix_cancel W hodd ?_
  calc (T + m * n) / 2 ^ W * 2 ^ W = T + m * n := hmul
    _ ≡ T [MOD n] := by simp [Nat.ModEq]
    _ = T * 1 := (mul_one T).symm
    _ ≡ T * (radixInverse W n * 2 ^ W) [MOD n] := (radixInverse_mul_modEq hodd).symm.mul_left T
    _ = T * radixInverse W n * 2 ^ W := by ring

end reduction

/-! ### The obligations -/

/-- Settles O39: for n ≥ 3, 1 mod n is 1; for n = 1 there is one number below n. -/
theorem radixInverseInverts : Obligations.RadixInverseInverts := by
  refine ⟨fun W n hodd hn => ?_, fun W => Nat.lt_one_iff.mp (radixInverse_lt W (by decide))⟩
  have hone : 1 % n = 1 := Nat.mod_eq_of_lt (by omega)
  refine ⟨radixInverse_pos hodd hn, radixInverse_lt W hodd, hone ▸ radix_mul_inverse W hodd, fun d _ hd hmul => ?_⟩
  exact eq_radixInverse hodd hd (hmul.trans hone.symm)

/-- Settles O44. -/
theorem montgomeryFormRoundTrip : Obligations.MontgomeryFormRoundTrip := by
  intro s rm ra rn ro hodd ha hmn
  have hpos : 0 < s.x rn := by omega
  refine ⟨?_, ?_⟩
  · obtain ⟨t, ht, hvt, hkt, hWt⟩ := exec_tomont_of_odd (rd := rm) hodd ha
    have hnt := hkt.x_of_ne hmn
    obtain ⟨u, hu, hvu, -, -⟩ := exec_frommont_of_odd (rd := ro) (rs1 := rm) (rs3 := rn) (s := t) (by rwa [hnt])
      (by rw [hvt, hnt]; exact Nat.mod_lt _ hpos)
    refine ⟨t, u, ht, hu, ?_⟩
    rw [hvu, hvt, hnt, hWt]
    exact mul_radix_mul_radixInverse hodd ha
  · obtain ⟨t, ht, hvt, hkt, hWt⟩ := exec_frommont_of_odd (rd := rm) hodd ha
    have hnt := hkt.x_of_ne hmn
    obtain ⟨u, hu, hvu, -, -⟩ := exec_tomont_of_odd (rd := ro) (rs1 := rm) (rs3 := rn) (s := t) (by rwa [hnt])
      (by rw [hvt, hnt]; exact Nat.mod_lt _ hpos)
    refine ⟨t, u, ht, hu, ?_⟩
    rw [hvu, hvt, hnt, hWt, radixInverse_cancel _ _ hodd, Nat.mod_eq_of_lt ha]

/-- Settles O45: the four values in turn, and MODMUL's. -/
theorem montgomeryProductIsModmul : Obligations.MontgomeryProductIsModmul := by
  intro s ra rb rn p q m o k hodd ha hb hpn hpb hqn hqp hmn
  have hpos : 0 < s.x rn := by omega
  obtain ⟨t1, h1, hv1, hk1, hW1⟩ := exec_tomont_of_odd (rd := p) hodd ha
  have hn1 := hk1.x_of_ne hpn
  have hb1 := hk1.x_of_ne hpb
  obtain ⟨t2, h2, hv2, hk2, hW2⟩ := exec_tomont_of_odd (rd := q) (rs1 := rb) (rs3 := rn) (s := t1) (by rwa [hn1])
    (by rwa [hb1, hn1])
  have hn2 := (hk2.x_of_ne hqn).trans hn1
  rw [hb1, hn1, hW1] at hv2
  have hp2 := (hk2.x_of_ne hqp).trans hv1
  obtain ⟨t3, h3, hv3, hk3, hW3⟩ := exec_montmul_of_odd (rd := m) (rs1 := p) (rs2 := q) (rs3 := rn) (s := t2)
    (by rwa [hn2]) (by rw [hp2, hn2]; exact Nat.mod_lt _ hpos) (by rw [hv2, hn2]; exact Nat.mod_lt _ hpos)
  have hn3 := (hk3.x_of_ne hmn).trans hn2
  rw [hp2, hv2, hn2, hW2, hW1] at hv3
  obtain ⟨t4, h4, hv4, -, -⟩ := exec_frommont_of_odd (rd := o) (rs1 := m) (rs3 := rn) (s := t3) (by rwa [hn3])
    (by rw [hv3, hn3]; exact Nat.mod_lt _ hpos)
  obtain ⟨u, hu, hvu, -⟩ := exec_modmul_of_ne_zero k ra rb hpos.ne'
  refine ⟨t1, t2, t3, t4, u, h1, h2, h3, h4, hu, ?_⟩
  rw [hv4, hv3, hn3, hW3, hW2, hW1, hvu]
  exact montgomery_product hodd _ _

/-- Settles O46: the division is exact, so the quotient is T * R^-1 modulo N, and below 2N. -/
theorem reductionGivesMontmul : Obligations.ReductionGivesMontmul := by
  intro rd rs1 rs2 rs3 s n' m t0 hodd hn ha hb _ hinv hm ht0
  have hexact := reduction_exact hinv hm
  have hlt : t0 < 2 * s.x rs3 :=
    ht0 ▸ reduction_lt hn ha hb (hm ▸ Nat.mod_lt _ (Nat.two_pow_pos s.W))
  obtain ⟨t, hexec, hval, -, -⟩ := exec_montmul_of_odd (rd := rd) hodd ha hb
  refine ⟨hexact, hlt, t, hexec, ?_⟩
  rw [hval, ← reduction_mod hodd hexact, ← ht0, mod_eq_sub_of_lt_two_mul hlt]

end Sys2Proof.Machine
end

section
/-! Proofs about the register window: reads and writes of the control registers, accesses while busy, accesses outside
the window, and the host step LOAD (10_state.md R25, R26; 20_memory.md R50, R58, R61; 30_encoding.md R91). -/

namespace Sys2Proof.Machine

/-! ### The bits of STATUS and CTRL (R25, R26) -/

/-- The bits of STATUS. -/
theorem getLsbD_statusWord (s : State) {k : Nat} (hk : k < 32) : (statusWord s).getLsbD k =
    if k = 0 then s.busy else if k = 1 then s.status.done else if k = 2 then s.status.err
    else if k = 3 then s.status.hz else if k < 8 then s.status.errCode.getLsbD (k - 4)
    else if k = 8 then s.status.z else if k = 9 then s.status.xs else if k = 10 then s.status.ys else false := by
  unfold statusWord
  simp only [BitVec.getLsbD_append, BitVec.getLsbD_ofBool]
  interval_cases k <;> simp

/-- BUSY is bit 0 of STATUS. -/
theorem statusWord_busy (s : State) : (statusWord s).getLsbD 0 = s.busy := getLsbD_statusWord s (by decide)

/-- DONE is bit 1 of STATUS. -/
theorem statusWord_done (s : State) : (statusWord s).getLsbD 1 = s.status.done := getLsbD_statusWord s (by decide)

theorem ctrlWord_eq (s : State) : ctrlWord s = if s.ie then 1#32 else 0#32 := by
  unfold ctrlWord
  cases s.ie <;> decide

/-! ### Accesses while busy (R61) -/

theorem readTarget_limb_of_busy {s : State} (h : s.busy = true) (i : Reg) (j : Nat) :
    readTarget (.limb i j) s = (Config.busyRead s.draws, { s.hazard with draws := s.draws + 1 }) := by
  simp [readTarget, h]

theorem writeTarget_limb_of_busy {s : State} (h : s.busy = true) (i : Reg) (j : Nat) (v : Word) :
    writeTarget (.limb i j) v s = s.hazard := by
  simp [writeTarget, h]

/-! ### The obligations on single accesses -/

/-- Settles O54, field by field. -/
theorem statusWordLayout : Obligations.StatusWordLayout := by
  intro s
  refine ⟨?busy, statusWord_done s, getLsbD_statusWord s (by decide), getLsbD_statusWord s (by decide), ?errCode,
    getLsbD_statusWord s (by decide), getLsbD_statusWord s (by decide), getLsbD_statusWord s (by decide), ?reserved⟩
  case busy => rw [statusWord_busy, busy_iff]
  case errCode =>
    apply BitVec.eq_of_getLsbD_eq
    intro k hk
    rw [BitVec.getLsbD_extractLsb', getLsbD_statusWord s (by omega)]
    interval_cases k <;> rfl
  case reserved =>
    apply BitVec.eq_of_getLsbD_eq
    intro k hk
    rw [BitVec.getLsbD_extractLsb', getLsbD_statusWord s (by omega)]
    interval_cases k <;> rfl

/-- Settles O59. -/
theorem outsideWindowHasNoEffect : Obligations.OutsideWindowHasNoEffect := by
  intro s a rest hr hq hout
  have hserve : s.advance.serve a = s.advance := by simp [State.serve, windowOffset_outside hout]
  rw [step_of_bus hq, hserve, held_of_released (by simpa using hr), advance_of_cons hq]

/-- Settles O53: each of the three reads only gets its answer. -/
theorem controlReadsHaveNoEffect : Obligations.ControlReadsHaveNoEffect := by
  rintro s off w rest hr (⟨rfl, rfl⟩ | ⟨rfl, rfl⟩ | ⟨rfl, rfl⟩) hq
  · exact ⟨_, step_hostRead hr hq (by decide) (by decide) (targetOf_cmd s.params), answer_advance_of_cons hq _⟩
  · exact ⟨_, step_hostRead hr hq (by decide) (by decide) (targetOf_status s.params), answer_advance_of_cons hq _⟩
  · exact ⟨_, step_hostRead hr hq (by decide) (by decide) (targetOf_ctrl s.params), answer_advance_of_cons hq _⟩

/-- Settles O55. -/
theorem statusWriteClearsDoneAndHazard : Obligations.StatusWriteClearsDoneAndHazard := by
  intro s v rest hr hq
  refine ⟨_, step_hostWrite hr hq (by decide) (by decide) (targetOf_status s.params), ?_⟩
  rw [writeTarget, answer_status, writeStatus_done, writeStatus_hz]
  cases v.getLsbD 1 <;> cases v.getLsbD 3 <;> simp [hq]

/-- Settles O56. -/
theorem ctrlWriteSetsInterruptEnable : Obligations.CtrlWriteSetsInterruptEnable := by
  intro s v rest hr hv hq
  refine ⟨_, step_hostWrite hr hq (by decide) (by decide) (targetOf_ctrl s.params), ?_⟩
  rw [writeTarget, writeCtrl_of_not_srst hv, ctrlWord_eq]
  simp [State.irq, hq]

/-- Settles O52: each of the three accesses sets HZ, the read draws a value as well, and the writes are dropped. -/
theorem busyAccessesSetHazard : Obligations.BusyAccessesSetHazard := by
  intro s c i j rest hp hr hj
  have hb : s.advance.busy = true := busy_of_busy hp
  refine ⟨fun hq => ?read, fun v hq => ?write, fun v hq => ?cmd⟩
  case read =>
    rw [step_hostRead (off := limbOffset i j) hr hq (limbOffset_lt_window _ i hj) (limbOffset_mod_four i j)
      (targetOf_limbOffset _ i hj), readTarget_limb_of_busy hb, advance_of_cons hq]
    rfl
  case write =>
    rw [step_hostWrite (off := limbOffset i j) hr hq (limbOffset_lt_window _ i hj) (limbOffset_mod_four i j)
      (targetOf_limbOffset _ i hj), writeTarget_limb_of_busy hb, advance_of_cons hq]
    rfl
  case cmd =>
    rw [step_hostWrite_cmd hr hq, issue_of_busy hb, advance_of_cons hq]
    rfl

/-! ### LOAD (R91) -/

/-- What the first k limb writes of `LOAD vi, value` leave. -/
structure Loaded (s t : State) (i : Reg) (value k : Nat) : Prop where
  limbs : ∀ j, j < k → limbOf (t.x i) j = limbOf value j
  lt : t.x i < 2 ^ s.W
  kept : RegsKeptExcept s t [i]
  status : t.status = s.status
  cmd : t.cmd = s.cmd
  ie : t.ie = s.ie
  phase : t.phase = .idle
  resetInput : t.resetInput = false
  params : t.params = s.params

/-- One more limb write of LOAD. -/
theorem Loaded.succ {s t : State} {i : Reg} {value k : Nat} (h : Loaded s t i value k) (hk : k < s.params.limbs)
    (r : Reply) : Loaded s ((t.advance.setLimb i k (limbOf value k)).answer r) i value (k + 1) where
  limbs j hj := by
    rw [answer_x, setLimb_x_self, advance_x]
    by_cases hjk : j = k
    · rw [hjk]; exact limbOf_withLimb_self _ k _
    · rw [limbOf_withLimb_ne _ _ hjk]; exact h.limbs j (by omega)
  lt := by
    have hlt := setLimb_x_lt (s := t.advance) (i := i) (limbOf value k) (by simpa [h.params] using hk)
      (by simpa [State.W, h.params] using h.lt)
    simpa [State.W, h.params] using hlt
  kept r' hr' := (setLimb_regsKept t.advance i k _ r' hr').trans (h.kept r' hr')
  status := h.status
  cmd := h.cmd
  ie := h.ie
  phase := h.phase
  resetInput := h.resetInput
  params := h.params

/-- The first k steps of LOAD perform its first k limb writes. -/
theorem run_load {s : State} {i : Reg} {value : Nat} {rest : List Event} (hp : s.phase = .idle)
    (hr : s.resetInput = false) (hx : s.x i < 2 ^ s.W) (hq : s.pending = hostLoad s.params i value ++ rest) (k : Nat)
    (hk : k ≤ s.params.limbs) : ∃ t : State, Sys2Proof.core.run k s = .next t ∧ Loaded s t i value k ∧
      t.pending = (hostLoad s.params i value).drop k ++ rest := by
  induction k with
  | zero =>
    exact ⟨s, rfl, ⟨fun j hj => absurd hj (Nat.not_lt_zero j), hx, fun _ _ => rfl, rfl, rfl, rfl, hp, hr, rfl⟩, hq⟩
  | succ k ih =>
    obtain ⟨t, hrun, hloaded, ht⟩ := ih (by omega)
    have hlen : k < (hostLoad s.params i value).length := by simpa [hostLoad] using hk
    rw [List.drop_eq_getElem_cons hlen, List.cons_append] at ht
    have hev : (hostLoad s.params i value)[k] = hostWrite t.params (limbOffset i k) (limbOf value k) := by
      simp [hostLoad, hloaded.params]
    have hstep := step_hostWrite_limb_of_idle hloaded.phase hloaded.resetInput (by simpa [hloaded.params] using hk)
      (hev ▸ ht)
    exact ⟨_, (run_add k 1 hrun).trans (run_succ 0 hstep), hloaded.succ hk _, by simp [ht]⟩

/-- Settles O50: after all the limb writes the register has the limbs of the value, and both are within W bits. -/
theorem loadSetsRegister : Obligations.LoadSetsRegister := by
  intro s i value rest hp hr hx hv hq
  obtain ⟨t, hrun, hloaded, ht⟩ := run_load hp hr hx hq s.params.limbs le_rfl
  have hlen : (hostLoad s.params i value).length = s.params.limbs := by simp [hostLoad]
  have hpow : 2 ^ s.W = 2 ^ (32 * s.params.limbs) := by rw [State.W, W_eq_limbs]
  refine ⟨t, hrun, eq_of_limbs (hpow ▸ hloaded.lt) (hpow ▸ hv) hloaded.limbs, hloaded.kept, hloaded.status,
    hloaded.cmd, hloaded.ie, hloaded.phase, hloaded.params, ?_⟩
  rw [ht, ← hlen, List.drop_length, List.nil_append]

/-! ### ISSUE and WAIT (R91, R235) -/

theorem statusWord_congr {s t : State} (hstatus : t.status = s.status) (hphase : t.phase = s.phase) :
    statusWord t = statusWord s := by
  simp only [statusWord, State.busy, hstatus, hphase]

theorem engineUnchanged_trans {s t u : State} (h : EngineUnchanged s t) (h' : EngineUnchanged t u) :
    EngineUnchanged s u := by
  obtain ⟨hparams, hx, hcmd, hstatus, hie, hphase, hreset, hdraws⟩ := h
  obtain ⟨hparams', hx', hcmd', hstatus', hie', hphase', hreset', hdraws'⟩ := h'
  exact ⟨hparams'.trans hparams, fun r => (hx' r).trans (hx r), hcmd'.trans hcmd, hstatus'.trans hstatus,
    hie'.trans hie, hphase'.trans hphase, hreset'.trans hreset, hdraws'.trans hdraws⟩

/-- n polls of STATUS get n answers with the word of STATUS, and nothing else happens. -/
theorem run_polls (n : Nat) : ∀ {s : State} {rest : List Event}, s.resetInput = false →
    s.pending = List.replicate n (hostRead s.params 0x000C) ++ rest →
    ∃ t : State, Sys2Proof.core.run n s = .next t ∧ EngineUnchanged s t ∧ t.pending = rest ∧
      t.replies = s.replies ++ List.replicate n (.data 0x000C (statusWord s)) := by
  induction n with
  | zero => exact fun {s rest} _ hq => ⟨s, rfl, by simp [EngineUnchanged], hq, by simp⟩
  | succ n ih =>
    intro s rest hr hq
    rw [List.replicate_succ, List.cons_append] at hq
    have hstep := step_hostRead hr hq (by decide) (by decide) (targetOf_status s.params)
    obtain ⟨hsame, hpending, hreplies⟩ := answer_advance_of_cons hq (.data 0x000C (statusWord s))
    have ⟨hparams, _, _, hstatus, _, hphase, hreset, _⟩ := hsame
    obtain ⟨t, hrun, hsame', hpt, hrt⟩ := ih (hreset.trans hr) (hparams.symm ▸ hpending)
    refine ⟨t, (run_succ n hstep).trans hrun, engineUnchanged_trans hsame hsame', hpt, ?_⟩
    rw [hrt, hreplies, statusWord_congr hstatus hphase, List.replicate_succ, List.append_assoc, List.singleton_append]

/-- Settles O60: acceptance, the polls, the completion and the last read in turn. -/
theorem issueThenWaitCompletes : Obligations.IssueThenWaitCompletes := by
  intro s i n rest hp hr hq
  have hissue := step_hostWrite_cmd_of_idle hp hr hq
  set s1 : State := (s.advance.load (encode i)).answer (.written 0x0008) with hs1
  have hq1 : s1.pending = List.replicate n (hostRead s1.params 0x000C) ++
      (.engine :: hostRead s1.params 0x000C :: rest) := by simp [hs1, hq, hostWait]
  obtain ⟨s2, hpolls, ⟨hparams2, -, hcmd2, hstatus2, -, hphase2, hr2, -⟩, hq2, hreplies2⟩ :=
    run_polls n (s := s1) hr hq1
  obtain ⟨s3, hexec⟩ := exec_next i s2.advance
  have hturn := (step_engine_of_busy hq2 hphase2 (hr2.trans hr) (decodeOfEncode i)).trans hexec
  obtain ⟨hparams3, hcmd3, -, hhz3, hr3, hq3, hreplies3, -⟩ := exec_commandFrame hexec
  have hidle := exec_phase hexec
  have hdone := exec_done hexec
  have hq3' : s3.pending = hostRead s3.params 0x000C :: rest := by simp [hq3, hq2, hparams3, hparams2]
  have hread := step_hostRead (hr3.trans (hr2.trans hr)) hq3' (by decide) (by decide) (targetOf_status s3.params)
  have hrun : Sys2Proof.core.run (n + 3) s =
      .next (s3.advance.answer (.data 0x000C (statusWord s3.advance))) := by
    rw [run_succ (n + 2) hissue, run_add n 2 hpolls, run_succ 1 hturn, run_succ 0 hread]
    rfl
  refine ⟨_, statusWord s1, hrun, ?replies, ?busy, ?idle, ?done, ?cmd, ?phase, ?hz, ?pending⟩
  case replies =>
    have hreplies1 : s1.replies = s.replies ++ [.written 0x0008] := rfl
    simp only [answer_replies, advance_replies, hreplies3, hreplies2, hreplies1, List.append_assoc,
      List.cons_append]
    rfl
  case busy => rw [statusWord_busy]; rfl
  case idle => rw [statusWord_busy]; exact busy_of_idle hidle
  case done => rw [statusWord_done]; exact hdone
  case cmd => simp [hcmd3, hcmd2, hs1]
  case phase => exact hidle
  case hz => simp [hhz3, hstatus2, hs1]
  case pending => simp [hq3']

end Sys2Proof.Machine
end

section
/-! Proofs about what raises and clears HZ and IRQ, over all steps (20_memory.md R61; 60_exceptions.md R208 to R210;
10_state.md R29). -/

namespace Sys2Proof.Machine

/-! ### The hazard flag (R61, R208) -/

/-- An access that names a target breaks the busy rule by what the target is. -/
theorem breaksBusyRule_iff {a : Access} {p : Params} {t : Target} (hn : a.names p t) :
    a.breaksBusyRule p ↔ (∃ i j, t = .limb i j) ∨ (t = .cmd ∧ ∃ v, a.op = .write v) := by
  have hiff : ∀ u, a.names p u ↔ t = u := fun u => ⟨names_unique hn, fun h => h ▸ hn⟩
  simp only [Access.breaksBusyRule, hiff]

theorem not_breaksBusyRule_of_no_target {a : Access} {p : Params} (h : ∀ t, ¬ a.names p t) :
    ¬ a.breaksBusyRule p := by
  rintro (⟨i, j, hn⟩ | ⟨hn, -⟩)
  · exact h _ hn
  · exact h _ hn

theorem not_names_of_outside {a : Access} {p : Params} (h : windowOffset p a.addr = none) (t : Target) :
    ¬ a.names p t := by
  rintro ⟨off, hoff, -⟩
  exact absurd (h.symm.trans hoff) (by simp)

/-- A host access sets HZ exactly when the engine is busy and the access breaks the rule. -/
theorem serve_hz_iff {s : State} (hz : s.status.hz = false) (a : Access) :
    (s.serve a).status.hz = true ↔ s.busy = true ∧ a.breaksBusyRule s.params := by
  rcases serve_cases s a with ⟨hw, he⟩ | ⟨hno, off, he⟩ | ⟨off, t, hn, ho, he⟩ | ⟨off, t, v, hn, ho, he⟩ <;> rw [he]
  · simp [hz, not_breaksBusyRule_of_no_target (not_names_of_outside hw)]
  · simp [hz, not_breaksBusyRule_of_no_target hno]
  · rw [breaksBusyRule_iff hn, ho]
    cases t with
    | limb i j => cases hb : s.busy <;> simp [readTarget, hb, hz]
    | _ => simp [readTarget, hz]
  · rw [breaksBusyRule_iff hn, ho]
    cases t with
    | limb i j => cases hb : s.busy <;> simp [writeTarget, hb, hz]
    | cmd => cases hb : s.busy <;> simp [writeTarget, State.issue, hb, hz]
    | status => simp [writeTarget, writeStatus_hz, hz]
    | ctrl => cases hv : v.getLsbD 1 with
      | true => simp [writeTarget, writeCtrl_of_srst hv, Status.reset]
      | false => simp [writeTarget, writeCtrl_of_not_srst hv, hz]
    | _ => simp [writeTarget, hz]

/-! ### Which writes the next event makes -/

theorem not_bus_of_engineNext {s : State} (h : s.engineNext) (a : Access) (rest : List Event) :
    s.pending ≠ .bus a :: rest := by
  rcases h with hq | ⟨_, hq⟩ <;> simp [hq]

theorem hostWrites_iff_of_write {s : State} {a : Access} {rest : List Event} {t : Target} {v : Word}
    (hq : s.pending = .bus a :: rest) (hn : a.names s.params t) (ho : a.op = .write v) (u : Target) (w : Word) :
    HostWrites s u w ↔ u = t ∧ w = v := by
  constructor
  · rintro ⟨a', rest', hq', hn', ho'⟩
    obtain ⟨ha, -⟩ := List.cons.inj (hq.symm.trans hq')
    cases ha
    exact ⟨names_unique hn' hn, AccessOp.write.inj (ho'.symm.trans ho)⟩
  · rintro ⟨rfl, rfl⟩
    exact ⟨a, rest, hq, hn, ho⟩

theorem not_hostWrites_of_no_write {s : State} {a : Access} {rest : List Event} (hq : s.pending = .bus a :: rest)
    (h : ∀ u w, a.names s.params u → a.op ≠ .write w) (u : Target) (w : Word) : ¬ HostWrites s u w := by
  rintro ⟨a', rest', hq', hn', ho'⟩
  obtain ⟨ha, -⟩ := List.cons.inj (hq.symm.trans hq')
  cases ha
  exact h u w hn' ho'

theorem not_hostWrites_of_turn {s : State} (h : EngineStep s) (u : Target) (w : Word) : ¬ HostWrites s u w := by
  rintro ⟨a, rest, hq, -⟩
  rcases h with hq' | ⟨rest', hq'⟩ <;> simp [hq'] at hq

theorem not_engineStep_of_bus {s : State} {a : Access} {rest : List Event} (hq : s.pending = .bus a :: rest) :
    ¬ EngineStep s := by
  simp [EngineStep, hq]

/-- A host's write of v to a target performs it. -/
theorem serve_of_names_write {s : State} {a : Access} {t : Target} {v : Word} (hn : a.names s.params t)
    (ho : a.op = .write v) : ∃ off, s.serve a = (writeTarget t v s).answer (.written off) := by
  rcases serve_cases s a with ⟨hw, -⟩ | ⟨hnone, -⟩ | ⟨off, u, -, ho', -⟩ | ⟨off, u, w, hn', ho', he⟩
  · exact absurd hn (not_names_of_outside hw t)
  · exact absurd hn (hnone t)
  · exact absurd (ho.symm.trans ho') (by simp)
  · obtain rfl := names_unique hn hn'
    obtain rfl := AccessOp.write.inj (ho.symm.trans ho')
    exact ⟨off, he⟩

/-! ### The causes of IRQ (R209, R210) -/

/-- What raises IRQ. -/
def IrqRises (s : State) : Prop :=
  ¬ ResetStep s ∧
    (((∃ c, s.phase = .busy c) ∧ EngineStep s ∧ s.ie = true) ∨
      (s.status.done = true ∧ ∃ v, HostWrites s .ctrl v ∧ v.getLsbD 0 = true ∧ v.getLsbD 1 = false))

/-- What clears IRQ. -/
def IrqFalls (s : State) : Prop :=
  ResetStep s ∨ (∃ v, HostWrites s .status v ∧ v.getLsbD 1 = true) ∨
    (s.phase = .idle ∧ ∃ v, HostWrites s .cmd v) ∨ ∃ v, HostWrites s .ctrl v ∧ v.getLsbD 0 = false

/-- IRQ changes between s and t exactly by its causes. -/
def IrqFollows (s t : State) : Prop :=
  (s.irq = false → (t.irq = true ↔ IrqRises s)) ∧ (s.irq = true → (t.irq = false ↔ IrqFalls s))

/-- A step that is no cause keeps IRQ. -/
theorem irqFollows_of_kept {s t : State} (h : t.irq = s.irq) (hrise : ¬ IrqRises s) (hfall : ¬ IrqFalls s) :
    IrqFollows s t :=
  ⟨fun hs => by simp [h, hs, hrise], fun hs => by simp [h, hs, hfall]⟩

/-- A step that is a cause of a fall, and none of a rise, leaves IRQ at 0. -/
theorem irqFollows_of_low {s t : State} (h : t.irq = false) (hrise : ¬ IrqRises s) (hfall : IrqFalls s) :
    IrqFollows s t :=
  ⟨fun _ => by simp [h, hrise], fun _ => by simp [h, hfall]⟩

theorem irq_congr {s t : State} (hie : t.ie = s.ie) (hdone : t.status.done = s.status.done) : t.irq = s.irq := by
  simp only [State.irq, hie, hdone]

theorem ie_and_done_of_irq {s : State} (h : s.irq = true) : s.ie = true ∧ s.status.done = true := by
  simpa [State.irq] using h

/-- A reset leaves IRQ at 0. -/
theorem irq_of_resetStep {s t : State} (h : step s = .next t) (hreset : ResetStep s) : t.irq = false := by
  by_cases hhard : (∃ level rest, s.pending = .resetInput level :: rest) ∨ s.resetInput = true
  · obtain ⟨u, rfl, -⟩ := step_of_hardwareReset h hhard
    rfl
  · rw [not_or, Bool.not_eq_true] at hhard
    obtain ⟨hevent, hr⟩ := hhard
    rcases hreset with hr' | hevent' | ⟨a, rest, v, hq, hn, ho, hv⟩
    · exact absurd (hr.symm.trans hr') (by simp)
    · exact absurd hevent' hevent
    · rw [step_of_bus hq, held_of_released (by simpa using hr)] at h
      obtain rfl := Host.Outcome.next.inj h
      obtain ⟨off, he⟩ := serve_of_names_write (s := s.advance) hn ho
      rw [he, writeTarget, writeCtrl_of_srst hv]
      rfl

/-- In a step that is no reset and no write of the host nothing clears IRQ. -/
theorem not_irqFalls_of_no_write {s : State} (hreset : ¬ ResetStep s) (h : ∀ u w, ¬ HostWrites s u w) :
    ¬ IrqFalls s := by
  simp [IrqFalls, hreset, h]

/-- A completion raises IRQ exactly when IE = 1. -/
theorem irqFollows_of_completion {s t : State} {c : Word} (hreset : ¬ ResetStep s) (hturn : EngineStep s)
    (hp : s.phase = .busy c) (hie : t.ie = s.ie) (hdone : t.status.done = true) : IrqFollows s t := by
  have hno := not_hostWrites_of_turn hturn
  have ht : t.irq = s.ie := by simp [State.irq, hie, hdone]
  refine ⟨fun _ => ?_, fun hs => ?_⟩
  · simp [ht, IrqRises, hreset, hturn, hno, hp]
  · obtain ⟨hie, -⟩ := ie_and_done_of_irq hs
    simp [ht, hie, not_irqFalls_of_no_write hreset hno]

/-- A host's write moves IRQ as its target says: STATUS clears DONE, CMD accepts a command, CTRL sets IE. -/
theorem irqFollows_of_write {s : State} {a : Access} {rest : List Event} {t : Target} {v : Word}
    (hreset : ¬ ResetStep s) (hq : s.pending = .bus a :: rest) (hn : a.names s.params t) (ho : a.op = .write v)
    (off : Nat) : IrqFollows s ((writeTarget t v s.advance).answer (.written off)) := by
  have hturn := not_engineStep_of_bus hq
  have hwrites := hostWrites_iff_of_write hq hn ho
  cases t with
  | id | config =>
    exact irqFollows_of_kept rfl (by simp [IrqRises, hturn, hwrites]) (by simp [IrqFalls, hreset, hwrites])
  | limb i j =>
    refine irqFollows_of_kept ?_ (by simp [IrqRises, hturn, hwrites]) (by simp [IrqFalls, hreset, hwrites])
    cases hb : s.busy <;> exact irq_congr (by simp [writeTarget, hb]) (by simp [writeTarget, hb])
  | cmd =>
    have hrise : ¬ IrqRises s := by simp [IrqRises, hturn, hwrites]
    cases hb : s.busy with
    | true =>
      have hp : s.phase ≠ .idle := fun hp => absurd (hb.symm.trans (busy_of_idle hp)) (by simp)
      rw [writeTarget, issue_of_busy (by simpa using hb)]
      exact irqFollows_of_kept rfl hrise (by simp [IrqFalls, hreset, hwrites, hp])
    | false =>
      have hp := (busy_eq_false_iff s).mp hb
      rw [writeTarget, issue_of_not_busy (by simpa using hb)]
      exact irqFollows_of_low (by simp [State.irq]) hrise (by simp [IrqFalls, hwrites, hp])
  | status =>
    have hrise : ¬ IrqRises s := by simp [IrqRises, hturn, hwrites]
    rw [writeTarget]
    cases hv : v.getLsbD 1 with
    | true =>
      exact irqFollows_of_low (by simp [State.irq, writeStatus_done, hv]) hrise (by simp [IrqFalls, hwrites, hv])
    | false =>
      have hdone : (writeStatus v s.advance).status.done = s.status.done := by
        rw [writeStatus_done, hv, Bool.not_false, Bool.and_true, advance_status]
      exact irqFollows_of_kept (irq_congr rfl hdone) hrise
        (by simp [IrqFalls, hreset, hwrites, hv, -BitVec.getLsbD_eq_getElem])
  | ctrl =>
    have hv : v.getLsbD 1 = false :=
      Bool.eq_false_iff.mpr fun hv => hreset (.inr (.inr ⟨a, rest, v, hq, hn, ho, hv⟩))
    rw [writeTarget, writeCtrl_of_not_srst hv]
    have hrise : IrqRises s ↔ s.status.done = true ∧ v.getLsbD 0 = true := by
      simp [IrqRises, hreset, hturn, hwrites, hv, -BitVec.getLsbD_eq_getElem]
    have hfall : IrqFalls s ↔ v.getLsbD 0 = false := by
      simp [IrqFalls, hreset, hwrites, -BitVec.getLsbD_eq_getElem]
    cases he : v.getLsbD 0 with
    | false => exact irqFollows_of_low (by simp [State.irq]) (by simp [he ▸ hrise]) (hfall.mpr he)
    | true =>
      have hirq : ((s.advance.enable true).answer (.written off)).irq = s.status.done := by simp [State.irq]
      refine ⟨fun _ => by simp [hirq, hrise, he], fun hs => ?_⟩
      obtain ⟨-, hdone⟩ := ie_and_done_of_irq hs
      simp [hirq, hdone, hfall, he]

/-- A host access moves IRQ only by a write to STATUS, CMD or CTRL. -/
theorem irqFollows_of_serve {s : State} {a : Access} {rest : List Event} (hreset : ¬ ResetStep s)
    (hq : s.pending = .bus a :: rest) : IrqFollows s (s.advance.serve a) := by
  have hturn := not_engineStep_of_bus hq
  have hno : (∀ u w, ¬ HostWrites s u w) → (s.advance.serve a).irq = s.irq → IrqFollows s (s.advance.serve a) :=
    fun hno hkept => irqFollows_of_kept hkept (by simp [IrqRises, hturn, hno]) (not_irqFalls_of_no_write hreset hno)
  rcases serve_cases s.advance a with ⟨hw, he⟩ | ⟨hnone, off, he⟩ | ⟨off, t, hn, ho, he⟩ | ⟨off, t, v, hn, ho, he⟩
  · exact hno (not_hostWrites_of_no_write hq fun u w hn => absurd hn (not_names_of_outside hw u)) (by rw [he]; rfl)
  · exact hno (not_hostWrites_of_no_write hq fun u w hn => absurd hn (hnone u)) (by rw [he]; rfl)
  · refine hno (not_hostWrites_of_no_write hq fun u w _ => by simp [ho]) ?_
    rw [he]
    refine irq_congr (by simp) ?_
    rcases readTarget_status t s.advance with hst | ⟨-, -, hst⟩ <;> simp [hst]
  · exact he ▸ irqFollows_of_write hreset hq hn ho off

/-! ### The obligations -/

/-- Settles O58: HZ is set by a host access only; the turn of the engine keeps it and a reset clears it. -/
theorem hazardExactlyOnViolation : Obligations.HazardExactlyOnViolation := by
  intro s t h hr hz
  rcases step_cases h with ⟨b, rest, hq, rfl⟩ | ⟨a, rest, hq, rfl⟩ | ⟨-, hr', -⟩ | ⟨hn, -, -, rfl⟩ |
    ⟨c, i, hn, -, -, -, hexec⟩ | ⟨c, e, hn, -, -, -, rfl⟩
  · simp [hq, Status.reset]
  · rw [held_of_released (by simpa using hr), serve_hz_iff (s := s.advance) hz a, advance_busy, busy_iff]
    simp [hq]
  · exact absurd (hr.symm.trans hr') (by simp)
  · simp [hz, not_bus_of_engineNext hn]
  · simp [(exec_commandFrame hexec).hz, hz, not_bus_of_engineNext hn]
  · simp [hz, not_bus_of_engineNext hn]

/-- Settles O57: a reset clears IRQ, a completion raises it if IE = 1, and a host access moves it by the writes
named. -/
theorem irqRisesAndFallsExactlyByItsCauses : Obligations.IrqRisesAndFallsExactlyByItsCauses := by
  refine ⟨fun s line => ?line, fun s t h => ?follows⟩
  case line => simp [State.irqOn, State.irq, and_comm]
  case follows =>
    change IrqFollows s t
    by_cases hreset : ResetStep s
    · exact irqFollows_of_low (irq_of_resetStep h hreset) (fun hrise => hrise.1 hreset) (.inl hreset)
    · rcases step_cases h with ⟨b, rest, hq, -⟩ | ⟨a, rest, hq, rfl⟩ | ⟨-, hr, -⟩ | ⟨hn, -, hp, rfl⟩ |
        ⟨c, i, hn, -, hp, -, hexec⟩ | ⟨c, e, hn, -, hp, -, rfl⟩
      · exact absurd (.inr (.inl ⟨b, rest, hq⟩)) hreset
      · have hr : s.resetInput = false := Bool.eq_false_iff.mpr fun hr => hreset (.inl hr)
        rw [held_of_released (by simpa using hr)]
        exact irqFollows_of_serve hreset hq
      · exact absurd (.inl hr) hreset
      · have hno := not_hostWrites_of_turn hn
        exact irqFollows_of_kept rfl (by simp [IrqRises, hp, hno]) (not_irqFalls_of_no_write hreset hno)
      · exact irqFollows_of_completion hreset hn hp (exec_commandFrame hexec).ie (exec_done hexec)
      · exact irqFollows_of_completion hreset hn hp rfl rfl

end Sys2Proof.Machine
end
